-- ==== Sys2Proof/Word.lean ====
section
/-! DEFINITION. The three widths of the G89 block (spec/00_scope.md section 8): a word is 32 bits, a byte 8, a
nibble 4. Bit 0 is the least significant bit, every value is unsigned. -/

namespace Sys2Proof

abbrev Word := BitVec 32
abbrev Byte := BitVec 8
abbrev Nibble := BitVec 4

end Sys2Proof
end

