-- ==== Sys2Proof/Config.lean ====
section
/-! DEFINITION. What an instance of the block fixes: the parameters of spec/00_scope.md rule R4, the numbers of
rule R3, the names operands range over, and the free values (constants without a body) of what the spec leaves
open. -/

namespace Sys2Proof

/-! ## Names and numbers operands range over -/

/-- A register number, `r0` to `r7` (30_encoding.md R46). -/
abbrev Reg := Fin 8

/-- A secure-buffer slot number as a field can hold it; legal when below `NSB` (30_encoding.md R47). -/
abbrev SlotIx := Fin 8

/-- A vault number as a field can hold it; legal when below `NVAULT` (30_encoding.md R47). -/
abbrev VaultIx := Fin 4

/-- The control registers, in the order of their numbers 0 to 5 (10_state.md R21). -/
inductive Csr where
  | id
  | status
  | sync0
  | sync1
  | config
  | xmemsz
  deriving DecidableEq, Repr

/-- The key source of `XFORM` (30_encoding.md R48). -/
inductive KeySrc where
  | slot (sb : SlotIx)
  | vault (v : VaultIx)
  deriving DecidableEq, Repr

/-! ## Parameters of the instance -/

/-- The parameters of 00_scope.md R4 that are numbers. They are fixed for the life of an instance. -/
structure Params where
  xmemSize : Nat
  nsb : Nat
  sbCap : Nat
  nvault : Nat
  deriving DecidableEq, Repr

/-- The default of every parameter (00_scope.md R4). -/
def Params.default : Params := { xmemSize := 4096, nsb := 4, sbCap := 64, nvault := 2 }

/-- The legal range of every parameter (00_scope.md R4). -/
abbrev Params.Legal (p : Params) : Prop :=
  (128 ≤ p.xmemSize ∧ p.xmemSize ≤ 2 ^ 31) ∧ (1 ≤ p.nsb ∧ p.nsb ≤ 8) ∧
    (32 ≤ p.sbCap ∧ p.sbCap ≤ 255) ∧ (1 ≤ p.nvault ∧ p.nvault ≤ 4)

/-! ## Fixed numbers -/

/-- `KEY_SIZE` (00_scope.md R3). -/
abbrev Config.keySize : Nat := 32

/-- The plaintext of a key, a pad, and the two stores of a vault: `KEY_SIZE` bytes. -/
abbrev Key := Vector Byte Config.keySize

/-- `SBOX[g][n]`: 8 groups of 16 four-bit entries (10_state.md R9). -/
abbrev SBox := Vector (Vector Nibble 16) 8

/-- The constant value of control register `ID` (10_state.md R18). -/
def Config.idValue : Word := 0x47383901#32

/-- The default sync vector, first word (00_scope.md R3, 10_state.md R8). -/
def Config.syncDefault0 : Word := 0x40FD452C#32

/-- The default sync vector, second word (00_scope.md R3, 10_state.md R8). -/
def Config.syncDefault1 : Word := 0xF86EDCDB#32

/-- The constant added carry-aware to the low register (00_scope.md R3). -/
def Config.lowStep : Word := 0x01010104#32

/-- The constant added with wraparound to the high register (00_scope.md R3). -/
def Config.highStep : Word := 0x01010101#32

/-- The number of bytes of a table source (00_scope.md R3). -/
abbrev Config.tableBytes : Nat := 128

/-! ## Free values -/

/-- `SBOX_RESET[g][n]` (00_scope.md R4, 93_implementation_defined.md U1): an open parameter, so a constant that
nothing constrains. Log entry 5. -/
opaque Config.sboxReset : Fin 8 → Fin 16 → Nibble

/-- What the byte of `XMEM` at an address holds while neither a command has written it nor a reset input has been taken
(10_state.md R25, 93_implementation_defined.md U2): any value, free. Log entry 4. -/
opaque Config.xmemFirst : (address : Nat) → Byte

/-- What the byte of `XMEM` at an address holds right after the `r`-th reset input, where it held `old` before
(10_state.md R25): any value, free. It may be `old`, since reset does not erase `XMEM` and what the host left there may
survive (70_reset_and_hazards.md R121). Log entry 4. -/
opaque Config.xmemReset : (r : Nat) → (address : Nat) → (old : Byte) → Byte

/-- The `i`-th byte ever drawn from the random source, where the environment has supplied none (10_state.md R23,
93_implementation_defined.md U3): any value, free, a fresh one at every `i`. Log entry 6. -/
opaque Config.rngByte : (i : Nat) → Byte

end Sys2Proof
end

