-- ==== Sys2Proof/Syntax.lean ====
section
/-! DEFINITION. The commands: one constructor for each of the 22 rows of spec/opcode_table.json (30_encoding.md
R51), with the operands in assembler order. -/

namespace Sys2Proof

inductive Instr where
  | nop
  | li (rd : Reg) (imm16 : BitVec 16)
  | lih (rd : Reg) (imm16 : BitVec 16)
  | getr (rs : Reg)
  | rdc (csr : Csr)
  | stb (ra : Reg) (imm8 : Byte)
  | ldb (ra : Reg)
  | stw (ra rb : Reg)
  | ldw (rd ra : Reg)
  | cfgsbox (ra rn : Reg)
  | cfgsync (ra rb : Reg)
  | xform (rd rs rn : Reg) (ks : KeySrc)
  | sbld (sb : SlotIx) (ra rn : Reg)
  | sbrel (sb : SlotIx) (imm8 : Byte)
  | sbrand (sb : SlotIx)
  | sbst (sb : SlotIx) (ra : Reg)
  | sblen (sb : SlotIx)
  | vnew (v : VaultIx) (sb : SlotIx)
  | gacq (v : VaultIx)
  | grel (v : VaultIx)
  | vrd (v : VaultIx) (ra : Reg)
  | vdel (v : VaultIx)
  deriving DecidableEq, Repr

end Sys2Proof
end

