-- ==== Sys2Proof/WellFormed.lean ====
section
/-! DEFINITION. When a command's fields are legal for an instance (30_encoding.md R47, R48, R50 step 3). Register
fields and control-register numbers are legal by their types (R46, 10_state.md R21). -/

namespace Sys2Proof

/-- A slot field is legal when its value is below `NSB` (30_encoding.md R47). -/
def slotLegal (p : Params) (sb : SlotIx) : Bool := decide (sb.val < p.nsb)

/-- A vault field is legal when its value is below `NVAULT` (30_encoding.md R47). -/
def vaultLegal (p : Params) (v : VaultIx) : Bool := decide (v.val < p.nvault)

/-- A key source is legal when the slot or vault it names is (30_encoding.md R48). -/
def keySrcLegal (p : Params) : KeySrc → Bool
  | .slot sb => slotLegal p sb
  | .vault v => vaultLegal p v

/-- Every field of the command is legal for the instance. -/
def Instr.wellFormed (p : Params) : Instr → Bool
  | .nop => true
  | .li _ _ => true
  | .lih _ _ => true
  | .getr _ => true
  | .rdc _ => true
  | .stb _ _ => true
  | .ldb _ => true
  | .stw _ _ => true
  | .ldw _ _ => true
  | .cfgsbox _ _ => true
  | .cfgsync _ _ => true
  | .xform _ _ _ ks => keySrcLegal p ks
  | .sbld sb _ _ => slotLegal p sb
  | .sbrel sb _ => slotLegal p sb
  | .sbrand sb => slotLegal p sb
  | .sbst sb _ => slotLegal p sb
  | .sblen sb => slotLegal p sb
  | .vnew v sb => vaultLegal p v && slotLegal p sb
  | .gacq v => vaultLegal p v
  | .grel v => vaultLegal p v
  | .vrd v _ => vaultLegal p v
  | .vdel v => vaultLegal p v

end Sys2Proof
end

