-- ==== Sys2Proof/Decode.lean ====
section
/-! DEFINITION. From a 32-bit command word to a command or a named rejection, in the order of 30_encoding.md R50,
and back. A word is read as six fields: the opcode, the four 4-bit indices `a` to `d`, and bits 7:0. The immediates
of format I are the fields `c`, `d`, `low` put together (30_encoding.md R44, R45). -/

namespace Sys2Proof

/-! ## Fields of a word -/

/-- Bits 31:24, 23:20, 19:16, 15:12, 11:8 and 7:0 of a command word (30_encoding.md R42 to R45). -/
structure Fields where
  op : Byte
  a : Nibble
  b : Nibble
  c : Nibble
  d : Nibble
  low : Byte
  deriving DecidableEq, Repr

/-- The fields of a word. -/
def wordFields (w : Word) : Fields where
  op := w.extractLsb' 24 8
  a := w.extractLsb' 20 4
  b := w.extractLsb' 16 4
  c := w.extractLsb' 12 4
  d := w.extractLsb' 8 4
  low := w.extractLsb' 0 8

/-- The word that has the given fields. -/
def fieldsWord (f : Fields) : Word := f.op ++ f.a ++ f.b ++ f.c ++ f.d ++ f.low

/-- `imm16`, bits 15:0 (30_encoding.md R49). -/
def fieldsImm16 (f : Fields) : BitVec 16 := f.c ++ f.d ++ f.low

/-! ## Opcodes -/

/-- The 22 opcodes of 30_encoding.md R51. -/
inductive Opcode where
  | nop | li | lih | getr | rdc | stb | ldb | stw | ldw
  | cfgsbox | cfgsync | xform
  | sbld | sbrel | sbrand | sbst | sblen
  | vnew | gacq | grel | vrd | vdel
  deriving DecidableEq, Repr

/-- The code of an opcode, bits 31:24 (30_encoding.md R51). -/
def opcodeByte : Opcode → Byte
  | .nop => 0x00#8
  | .li => 0x01#8
  | .lih => 0x02#8
  | .getr => 0x03#8
  | .rdc => 0x04#8
  | .stb => 0x08#8
  | .ldb => 0x09#8
  | .stw => 0x0A#8
  | .ldw => 0x0B#8
  | .cfgsbox => 0x10#8
  | .cfgsync => 0x11#8
  | .xform => 0x12#8
  | .sbld => 0x20#8
  | .sbrel => 0x21#8
  | .sbrand => 0x22#8
  | .sbst => 0x23#8
  | .sblen => 0x24#8
  | .vnew => 0x30#8
  | .gacq => 0x31#8
  | .grel => 0x32#8
  | .vrd => 0x33#8
  | .vdel => 0x34#8

/-- The opcode of a command. -/
def instrOpcode : Instr → Opcode
  | .nop => .nop
  | .li _ _ => .li
  | .lih _ _ => .lih
  | .getr _ => .getr
  | .rdc _ => .rdc
  | .stb _ _ => .stb
  | .ldb _ => .ldb
  | .stw _ _ => .stw
  | .ldw _ _ => .ldw
  | .cfgsbox _ _ => .cfgsbox
  | .cfgsync _ _ => .cfgsync
  | .xform _ _ _ _ => .xform
  | .sbld _ _ _ => .sbld
  | .sbrel _ _ => .sbrel
  | .sbrand _ => .sbrand
  | .sbst _ _ => .sbst
  | .sblen _ => .sblen
  | .vnew _ _ => .vnew
  | .gacq _ => .gacq
  | .grel _ => .grel
  | .vrd _ _ => .vrd
  | .vdel _ => .vdel

/-- Every opcode, in the order of 30_encoding.md R51. -/
def opcodeList : List Opcode :=
  [.nop, .li, .lih, .getr, .rdc, .stb, .ldb, .stw, .ldw, .cfgsbox, .cfgsync, .xform,
    .sbld, .sbrel, .sbrand, .sbst, .sblen, .vnew, .gacq, .grel, .vrd, .vdel]

/-- The opcode with a given code, if the code is assigned (30_encoding.md R50 step 1, R52). -/
def opcodeOf? (b : Byte) : Option Opcode := opcodeList.find? (fun o => opcodeByte o == b)

/-- Whether every field that the command of this opcode does not use, and every "must be 0" field of its format, is
0 (30_encoding.md R50 step 2, R51). -/
def unusedZero (o : Opcode) (f : Fields) : Bool :=
  match o with
  | .nop => f.a == 0#4 && f.b == 0#4 && f.c == 0#4 && f.d == 0#4 && f.low == 0#8
  | .li => f.b == 0#4
  | .lih => f.b == 0#4
  | .getr => f.b == 0#4 && f.c == 0#4 && f.d == 0#4 && f.low == 0#8
  | .rdc => f.a == 0#4 && f.b == 0#4
  | .stb => f.b == 0#4 && f.c == 0#4 && f.d == 0#4
  | .ldb => f.b == 0#4 && f.c == 0#4 && f.d == 0#4 && f.low == 0#8
  | .stw => f.c == 0#4 && f.d == 0#4 && f.low == 0#8
  | .ldw => f.c == 0#4 && f.d == 0#4 && f.low == 0#8
  | .cfgsbox => f.c == 0#4 && f.d == 0#4 && f.low == 0#8
  | .cfgsync => f.c == 0#4 && f.d == 0#4 && f.low == 0#8
  | .xform => f.low == 0#8
  | .sbld => f.d == 0#4 && f.low == 0#8
  | .sbrel => f.b == 0#4 && f.c == 0#4 && f.d == 0#4
  | .sbrand => f.b == 0#4 && f.c == 0#4 && f.d == 0#4 && f.low == 0#8
  | .sbst => f.c == 0#4 && f.d == 0#4 && f.low == 0#8
  | .sblen => f.b == 0#4 && f.c == 0#4 && f.d == 0#4 && f.low == 0#8
  | .vnew => f.c == 0#4 && f.d == 0#4 && f.low == 0#8
  | .gacq => f.b == 0#4 && f.c == 0#4 && f.d == 0#4 && f.low == 0#8
  | .grel => f.b == 0#4 && f.c == 0#4 && f.d == 0#4 && f.low == 0#8
  | .vrd => f.c == 0#4 && f.d == 0#4 && f.low == 0#8
  | .vdel => f.b == 0#4 && f.c == 0#4 && f.d == 0#4 && f.low == 0#8

/-! ## Field values -/

/-- A register field: 0..7 (30_encoding.md R46). -/
def fieldReg? (f : Nibble) : Option Reg :=
  if h : f.toNat < 8 then some ⟨f.toNat, h⟩ else none

/-- A slot field: below `NSB` (30_encoding.md R47). -/
def fieldSlot? (p : Params) (f : Nibble) : Option SlotIx :=
  if h : f.toNat < 8 then
    if slotLegal p ⟨f.toNat, h⟩ then some ⟨f.toNat, h⟩ else none
  else none

/-- A vault field: below `NVAULT` (30_encoding.md R47). -/
def fieldVault? (p : Params) (f : Nibble) : Option VaultIx :=
  if h : f.toNat < 4 then
    if vaultLegal p ⟨f.toNat, h⟩ then some ⟨f.toNat, h⟩ else none
  else none

/-- The key-source field: bit 3 chooses slot (0) or vault (1), bits 2:0 are its number (30_encoding.md R48). -/
def fieldKeySrc? (p : Params) (f : Nibble) : Option KeySrc :=
  if f.getLsbD 3 then
    (fieldVault? p (0#1 ++ f.extractLsb' 0 3)).map KeySrc.vault
  else
    (fieldSlot? p (0#1 ++ f.extractLsb' 0 3)).map KeySrc.slot

/-- A control-register number: 0..5 (10_state.md R21). -/
def csrOf? (n : BitVec 16) : Option Csr :=
  if n = 0#16 then some .id
  else if n = 1#16 then some .status
  else if n = 2#16 then some .sync0
  else if n = 3#16 then some .sync1
  else if n = 4#16 then some .config
  else if n = 5#16 then some .xmemsz
  else none

/-- The command that an opcode and its fields give, where every field is in range (30_encoding.md R50 step 3, R51). -/
def operands? (p : Params) (o : Opcode) (f : Fields) : Option Instr :=
  match o with
  | .nop => some .nop
  | .li => (fieldReg? f.a).map fun rd => .li rd (fieldsImm16 f)
  | .lih => (fieldReg? f.a).map fun rd => .lih rd (fieldsImm16 f)
  | .getr => (fieldReg? f.a).map .getr
  | .rdc => (csrOf? (fieldsImm16 f)).map .rdc
  | .stb => (fieldReg? f.a).map fun ra => .stb ra f.low
  | .ldb => (fieldReg? f.a).map .ldb
  | .stw => (fieldReg? f.a).bind fun ra => (fieldReg? f.b).map fun rb => .stw ra rb
  | .ldw => (fieldReg? f.a).bind fun rd => (fieldReg? f.b).map fun ra => .ldw rd ra
  | .cfgsbox => (fieldReg? f.a).bind fun ra => (fieldReg? f.b).map fun rn => .cfgsbox ra rn
  | .cfgsync => (fieldReg? f.a).bind fun ra => (fieldReg? f.b).map fun rb => .cfgsync ra rb
  | .xform =>
    (fieldReg? f.a).bind fun rd => (fieldReg? f.b).bind fun rs => (fieldReg? f.c).bind fun rn =>
      (fieldKeySrc? p f.d).map fun ks => .xform rd rs rn ks
  | .sbld =>
    (fieldSlot? p f.a).bind fun sb => (fieldReg? f.b).bind fun ra => (fieldReg? f.c).map fun rn =>
      .sbld sb ra rn
  | .sbrel => (fieldSlot? p f.a).map fun sb => .sbrel sb f.low
  | .sbrand => (fieldSlot? p f.a).map .sbrand
  | .sbst => (fieldSlot? p f.a).bind fun sb => (fieldReg? f.b).map fun ra => .sbst sb ra
  | .sblen => (fieldSlot? p f.a).map .sblen
  | .vnew => (fieldVault? p f.a).bind fun v => (fieldSlot? p f.b).map fun sb => .vnew v sb
  | .gacq => (fieldVault? p f.a).map .gacq
  | .grel => (fieldVault? p f.a).map .grel
  | .vrd => (fieldVault? p f.a).bind fun v => (fieldReg? f.b).map fun ra => .vrd v ra
  | .vdel => (fieldVault? p f.a).map .vdel

/-! ## The decoder -/

/-- Why a word is illegal: the step of 30_encoding.md R50 it fails at. -/
inductive Illegal where
  | unknownOpcode
  | mustBeZero
  | fieldOutOfRange
  deriving DecidableEq, Repr

/-- Decoding by fields (30_encoding.md R50). -/
def decodeFields (p : Params) (f : Fields) : Except Illegal Instr :=
  match opcodeOf? f.op with
  | none => .error .unknownOpcode
  | some o =>
    if unusedZero o f then
      match operands? p o f with
      | none => .error .fieldOutOfRange
      | some i => .ok i
    else .error .mustBeZero

/-- Decoding a command word for an instance: total, every word is one command or illegal (30_encoding.md R50). -/
def decode (p : Params) (w : Word) : Except Illegal Instr := decodeFields p (wordFields w)

/-- The command that the decoder reads from a word of an instance with the default parameters. A command is one
32-bit word (30_encoding.md R42) that is presented as a number, not fetched from bytes (20_memory.md R40), so there
is no byte order to lay it out in. -/
def decodeTableWord (nbits w : Nat) : Option Instr :=
  match decode Params.default (BitVec.ofNat 32 (w % 2 ^ nbits)) with
  | .ok i => some i
  | .error _ => none

/-! ## The encoder -/

/-- The 4-bit field of a register number. -/
def regField (r : Reg) : Nibble := BitVec.ofNat 4 r.val

/-- The 4-bit field of a slot number. -/
def slotField (sb : SlotIx) : Nibble := BitVec.ofNat 4 sb.val

/-- The 4-bit field of a vault number. -/
def vaultField (v : VaultIx) : Nibble := BitVec.ofNat 4 v.val

/-- The 4-bit field of a key source (30_encoding.md R48). -/
def keySrcField : KeySrc → Nibble
  | .slot sb => 0#1 ++ BitVec.ofNat 3 sb.val
  | .vault v => 1#1 ++ BitVec.ofNat 3 v.val

/-- The number of a control register (10_state.md R21). -/
def csrNumber : Csr → BitVec 16
  | .id => 0#16
  | .status => 1#16
  | .sync0 => 2#16
  | .sync1 => 3#16
  | .config => 4#16
  | .xmemsz => 5#16

/-- Format I: an index and a 16-bit immediate (30_encoding.md R44). -/
def formatI (o : Opcode) (a : Nibble) (imm16 : BitVec 16) : Fields where
  op := opcodeByte o
  a := a
  b := 0#4
  c := imm16.extractLsb' 12 4
  d := imm16.extractLsb' 8 4
  low := imm16.extractLsb' 0 8

/-- Format R: up to four indices (30_encoding.md R45); format N is the one with none (R43). -/
def formatR (o : Opcode) (a b c d : Nibble) : Fields where
  op := opcodeByte o
  a := a
  b := b
  c := c
  d := d
  low := 0#8

/-- The fields of a command (30_encoding.md R51). -/
def encodeFields : Instr → Fields
  | .nop => formatR .nop 0#4 0#4 0#4 0#4
  | .li rd imm => formatI .li (regField rd) imm
  | .lih rd imm => formatI .lih (regField rd) imm
  | .getr rs => formatR .getr (regField rs) 0#4 0#4 0#4
  | .rdc csr => formatI .rdc 0#4 (csrNumber csr)
  | .stb ra imm => formatI .stb (regField ra) (0#8 ++ imm)
  | .ldb ra => formatR .ldb (regField ra) 0#4 0#4 0#4
  | .stw ra rb => formatR .stw (regField ra) (regField rb) 0#4 0#4
  | .ldw rd ra => formatR .ldw (regField rd) (regField ra) 0#4 0#4
  | .cfgsbox ra rn => formatR .cfgsbox (regField ra) (regField rn) 0#4 0#4
  | .cfgsync ra rb => formatR .cfgsync (regField ra) (regField rb) 0#4 0#4
  | .xform rd rs rn ks => formatR .xform (regField rd) (regField rs) (regField rn) (keySrcField ks)
  | .sbld sb ra rn => formatR .sbld (slotField sb) (regField ra) (regField rn) 0#4
  | .sbrel sb imm => formatI .sbrel (slotField sb) (0#8 ++ imm)
  | .sbrand sb => formatR .sbrand (slotField sb) 0#4 0#4 0#4
  | .sbst sb ra => formatR .sbst (slotField sb) (regField ra) 0#4 0#4
  | .sblen sb => formatR .sblen (slotField sb) 0#4 0#4 0#4
  | .vnew v sb => formatR .vnew (vaultField v) (slotField sb) 0#4 0#4
  | .gacq v => formatR .gacq (vaultField v) 0#4 0#4 0#4
  | .grel v => formatR .grel (vaultField v) 0#4 0#4 0#4
  | .vrd v ra => formatR .vrd (vaultField v) (regField ra) 0#4 0#4
  | .vdel v => formatR .vdel (vaultField v) 0#4 0#4 0#4

/-- The command word of a command (30_encoding.md R51). -/
def encode (i : Instr) : Word := fieldsWord (encodeFields i)

end Sys2Proof
end

