-- ==== Sys2Proof/Machine/State.lean ====
section
/-! DEFINITION. Every piece of state of the block (10_state.md), as plain data, and its value after reset
(10_state.md R25). Beside the spec's state stand the instance's parameters and the ends of the block's interface:
what the host will present, the latest response, and what the random source has ready. -/

namespace Sys2Proof.Machine

/-- The block never stops: an error is the response of a command, not a halt (60_exceptions.md R112, R114), so
there is no fault. Log entry 9. -/
inductive Fault where
  deriving DecidableEq, Repr

/-- Why an instruction has no meaning. -/
inductive Refusal where
  /-- Raised by `exec` for a command the model gives no meaning; safe. No arm raises it: every command has its
  meaning. Log entry 9. -/
  | notModelled (mnemonic : String)
  deriving DecidableEq, Repr

/-- The error codes (60_exceptions.md R105), which are also the values `LASTERR` can hold. -/
inductive ErrCode where
  | success
  | configurationError
  | lengthError
  | stateError
  | addressError
  | illegalCommand
  deriving DecidableEq, Repr

/-- The response to a command (10_state.md R22, 30_encoding.md R54). -/
structure Response where
  err : ErrCode
  val : Word
  deriving DecidableEq, Repr

/-- What the host can present between two commands: a command word, or the reset input (70_reset_and_hazards.md
R120 and section 4). -/
inductive HostInput where
  | command (w : Word)
  | reset
  deriving DecidableEq, Repr

/-- `XMEM` (10_state.md R12): the bytes that a command has ever written, each with its address, addresses strictly
rising. An address that is not listed has not been written. Log entry 4. -/
abbrev Memory := List Host.Cell

/-- The one form of a memory of `size` bytes: addresses strictly rising, every address below `size`. A listed
address has been written and an unlisted one has not, so no entry says what leaving it out would say. -/
abbrev Memory.wf (size : Nat) (m : Memory) : Prop :=
  m.Pairwise (fun x y => x.1 < y.1) ∧ ∀ c ∈ m, c.1 < size

/-- The cipher engine's hidden registers: the key schedule `K[0..7]` (10_state.md R10) and the working registers
`A`, `B`, `GA`, `GB` (R11). -/
structure Engine where
  k : Vector Word 8
  a : Word
  b : Word
  ga : Word
  gb : Word
  deriving DecidableEq, Repr

/-- A secure-buffer slot (10_state.md R13). -/
structure Slot where
  valid : Bool
  len : Nat
  bytes : List Byte
  deriving DecidableEq, Repr

/-- A key vault (10_state.md R15). -/
structure Vault where
  valid : Bool
  guard : Bool
  data : Key
  mask : Key
  deriving DecidableEq, Repr

structure State where
  /-- The instance's parameters (00_scope.md R4); nothing writes them. Log entry 7. -/
  params : Params
  /-- `x[0]`..`x[7]` (10_state.md R6). -/
  regs : Vector Word 8
  /-- `SYNC[0]` (10_state.md R8). -/
  sync0 : Word
  /-- `SYNC[1]` (10_state.md R8). -/
  sync1 : Word
  /-- `SBOX` (10_state.md R9). -/
  sbox : SBox
  /-- `K`, `A`, `B`, `GA`, `GB` (10_state.md R10, R11). -/
  engine : Engine
  /-- `XMEM` (10_state.md R12). -/
  xmem : Memory
  /-- `SB[0]`..`SB[NSB-1]` (10_state.md R13). -/
  slots : List Slot
  /-- `V[0]`..`V[NVAULT-1]` (10_state.md R15). -/
  vaults : List Vault
  /-- `LASTERR` (10_state.md R17, R24). -/
  lastErr : ErrCode
  /-- The latest response, none before the first command after a reset (10_state.md R22). Log entry 1. -/
  response : Option Response
  /-- What the host presents next, oldest first (10_state.md R7). Log entry 2. -/
  port : List HostInput
  /-- The bytes the random source has ready, the next one first (10_state.md R23). Log entry 6. -/
  rngIn : List Byte
  /-- How many random bytes have been drawn. Log entry 6. -/
  draws : Nat
  /-- How many times the reset input has been taken. Log entry 4. -/
  resets : Nat
  deriving DecidableEq, Repr

/-- The engine with every register zero (10_state.md R25; 40_cipher_datapath.md R71). -/
def Engine.zero : Engine :=
  { k := #v[0, 0, 0, 0, 0, 0, 0, 0], a := 0, b := 0, ga := 0, gb := 0 }

/-- A free slot of `cap` bytes, every byte the fill (10_state.md R14). -/
def Slot.free (cap : Nat) (fill : Byte) : Slot :=
  { valid := false, len := 0, bytes := List.replicate cap fill }

/-- The key of 32 zero bytes. -/
def Key.zero : Key := Vector.replicate Config.keySize 0#8

/-- An absent vault, both stores zero (10_state.md R16, R25). -/
def Vault.absent : Vault :=
  { valid := false, guard := false, data := Key.zero, mask := Key.zero }

/-- An instance with parameters `p` after reset, when the reset input has been taken `n` times (10_state.md R25). -/
def State.afterReset (p : Params) (n : Nat) : State where
  params := p
  regs := #v[0, 0, 0, 0, 0, 0, 0, 0]
  sync0 := Config.syncDefault0
  sync1 := Config.syncDefault1
  sbox := Vector.ofFn fun g => Vector.ofFn fun e => Config.sboxReset g e
  engine := Engine.zero
  xmem := []
  slots := List.replicate p.nsb (Slot.free p.sbCap 0#8)
  vaults := List.replicate p.nvault Vault.absent
  lastErr := .success
  response := none
  port := []
  rngIn := []
  draws := 0
  resets := n

/-- The block after reset, with the default parameters (10_state.md R25, 00_scope.md R4). -/
def State.reset : State := State.afterReset Params.default 0

end Sys2Proof.Machine
end

