-- ==== Sys2Proof/Machine/Ops.lean ====
section
/-! DEFINITION. The shared operations: ending a command (success or error), `XMEM`, the random source, the reset
input, and taking the host's next input. -/

namespace Sys2Proof.Machine

abbrev Result := Host.Outcome State Fault Refusal

/-! ## Ending a command -/

/-- Every command ends so: it answers (`ERR`, `VAL`) and, as its last action, writes `LASTERR` with its own code
(10_state.md R22, R24). -/
def State.complete (s : State) (e : ErrCode) (v : Word) : State :=
  { s with lastErr := e, response := some { err := e, val := v } }

/-- `resp(v)`: success with the value `v` (00_scope.md section 8). -/
def respond (v : Word) (s : State) : Result := .next (s.complete .success v)

/-- `raise E` (60_exceptions.md R112): the block's whole form of taking an exception. The response is the code of
`E` with value 0, `LASTERR` takes the code, nothing else changes; there is no handler to go to, no register to save
into, and no return (R114). -/
def raise (e : ErrCode) (s : State) : Result := .next (s.complete e 0#32)

/-! ## Exchange memory -/

/-- What has been written at an address, if anything has. -/
def Memory.byteAt? : Memory → Nat → Option Byte
  | [], _ => none
  | c :: m, a => if c.1 = a then some c.2 else Memory.byteAt? m a

/-- Write one byte, keeping the addresses in rising order. -/
def Memory.put : Memory → Nat → Byte → Memory
  | [], a, v => [(a, v)]
  | c :: m, a, v =>
    if a < c.1 then (a, v) :: c :: m
    else if a = c.1 then (a, v) :: m
    else c :: Memory.put m a v

/-- Write a byte sequence from an address upwards. -/
def Memory.putAll : Memory → Nat → List Byte → Memory
  | m, _, [] => m
  | m, a, v :: vs => Memory.putAll (Memory.put m a v) (a + 1) vs

/-- A byte of `XMEM` that no command has ever written, when the reset input has been taken `r` times: an arbitrary
value that it keeps until it is written or the next reset (10_state.md R25, 93_implementation_defined.md U2). -/
def xmemUnwritten : (r : Nat) → (a : Nat) → Byte
  | 0, a => Config.xmemFirst a
  | r + 1, a => Config.xmemReset (r + 1) a (xmemUnwritten r a)

/-- The `r`-th reset input leaves every written byte unspecified, its old value among the possible ones (10_state.md
R25, 70_reset_and_hazards.md R121). -/
def Memory.afterReset (r : Nat) (m : Memory) : Memory :=
  m.map fun c => (c.1, Config.xmemReset r c.1 c.2)

/-- `XMEM[a]`: what is listed, or the value of a byte that nothing has written. -/
def State.xmemByte (s : State) (a : Nat) : Byte :=
  match Memory.byteAt? s.xmem a with
  | some v => v
  | none => xmemUnwritten s.resets a

/-- `XMEM[a..a+n)`. -/
def State.xmemBytes (s : State) (a n : Nat) : List Byte :=
  (List.range n).map fun i => s.xmemByte (a + i)

/-- `XMEM[a..a+len) <- vs` (20_memory.md R33). -/
def State.storeBytes (s : State) (a : Nat) (vs : List Byte) : State :=
  { s with xmem := Memory.putAll s.xmem a vs }

/-- `LE32(b0, b1, b2, b3)` (00_scope.md section 8). -/
def le32 (b0 b1 b2 b3 : Byte) : Word := b3 ++ b2 ++ b1 ++ b0

/-- The four bytes of a word, least significant first (20_memory.md R31, R33). -/
def wordBytes (w : Word) : List Byte :=
  [w.extractLsb' 0 8, w.extractLsb' 8 8, w.extractLsb' 16 8, w.extractLsb' 24 8]

/-- `MemRead(a, 4)` (20_memory.md R33). -/
def State.loadWord (s : State) (a : Nat) : Word :=
  le32 (s.xmemByte a) (s.xmemByte (a + 1)) (s.xmemByte (a + 2)) (s.xmemByte (a + 3))

/-- `MemWrite(a, 4, w)` (20_memory.md R33). -/
def State.storeWord (s : State) (a : Nat) (w : Word) : State := s.storeBytes a (wordBytes w)

/-- `InRange(a, n)` (20_memory.md R32): on natural numbers, and always true of length 0. -/
abbrev State.InRange (s : State) (a : Word) (n : Nat) : Prop :=
  n = 0 ∨ a.toNat + n ≤ s.params.xmemSize

/-- `Overlap(d, s, n)` (20_memory.md R37): the two ranges share a byte but are not the same range. -/
abbrev Overlap (dst src : Word) (n : Nat) : Prop :=
  n > 0 ∧ src ≠ dst ∧ src.toNat < dst.toNat + n ∧ dst.toNat < src.toNat + n

/-! ## The random source -/

/-- Byte `i` of the source's next answer (10_state.md R23): what the environment has ready, and a free value where
it has nothing ready. -/
def State.rngByte (s : State) (i : Nat) : Byte :=
  match s.rngIn[i]? with
  | some v => v
  | none => Config.rngByte (s.draws + i)

/-- The bytes `Rng(n)` answers with. -/
def State.rngBytes (s : State) (n : Nat) : List Byte := (List.range n).map s.rngByte

/-- The pad that a `Rng(32)` answers with. -/
def State.rngPad (s : State) : Key := Vector.ofFn fun i => s.rngByte i.val

/-- `n` bytes have been drawn: no later request gets them again. -/
def State.rngAdvance (s : State) (n : Nat) : State :=
  { s with rngIn := s.rngIn.drop n, draws := s.draws + n }

/-! ## Host inputs -/

/-- The reset input (70_reset_and_hazards.md R121): every piece of state takes its value of 10_state.md R25; `XMEM` is
not erased, each byte is left with a free value that its old one may be. The instance's parameters, what the host
presents next and the random source are not state of the block and stay. -/
def State.takeReset (s : State) : State :=
  { State.afterReset s.params (s.resets + 1) with
    xmem := Memory.afterReset (s.resets + 1) s.xmem
    port := s.port, rngIn := s.rngIn, draws := s.draws }

/-- The host's next input, and the state once it has been taken from the port. -/
def State.nextInput? (s : State) : Option (HostInput × State) :=
  match s.port with
  | [] => none
  | x :: rest => some (x, { s with port := rest })

/-- The host presents a command word before everything it was going to present. -/
def State.present (s : State) (w : Word) : State := { s with port := .command w :: s.port }

end Sys2Proof.Machine
end

