-- ==== Sys2Proof/Machine/Cipher.lean ====
section
/-! DEFINITION. The cipher datapath (40_cipher_datapath.md): the pure functions of rules R57 to R68, and the transform
of rule R69 run on the engine's registers. -/

namespace Sys2Proof.Machine

/-! ## Substitution and round function -/

/-- Nibble `i` of a word, bits `4i+3:4i`. -/
def nibble (w : Word) (i : Nat) : Nibble := w.extractLsb' (4 * i) 4

/-- `SBOX[g][n]`. -/
def sboxEntry (t : SBox) (g : Fin 8) (n : Nibble) : Nibble := (t[g.val])[n.toNat]'n.isLt

/-- `Subst(w)` (R57): nibble `i` through group `i`, each in its place. -/
def subst (t : SBox) (w : Word) : Word :=
  sboxEntry t 7 (nibble w 7) ++ sboxEntry t 6 (nibble w 6) ++ sboxEntry t 5 (nibble w 5) ++
    sboxEntry t 4 (nibble w 4) ++ sboxEntry t 3 (nibble w 3) ++ sboxEntry t 2 (nibble w 2) ++
    sboxEntry t 1 (nibble w 1) ++ sboxEntry t 0 (nibble w 0)

/-- `ROL32(w, k)` (00_scope.md section 8). -/
def rol32 (w : Word) (k : Nat) : Word := (w <<< k) ||| (w >>> (32 - k))

/-- `F(w)` (R58). -/
def roundF (t : SBox) (w : Word) : Word := rol32 (subst t w) 11

/-! ## Key schedule -/

/-- `KeyWords(key)` (R60). -/
def keyWords (key : Key) : Vector Word 8 :=
  Vector.ofFn fun i =>
    le32 (key[4 * i.val]'(by simp only [Config.keySize]; omega)) (key[4 * i.val + 1]'(by simp only [Config.keySize]; omega))
      (key[4 * i.val + 2]'(by simp only [Config.keySize]; omega)) (key[4 * i.val + 3]'(by simp only [Config.keySize]; omega))

/-- `KIDX(r)` for round `r` in 0..31 (R61). -/
def kidx (r : Nat) : Nat := if r < 24 then r % 8 else 31 - r

theorem kidx_lt (r : Nat) : kidx r < 8 := by
  unfold kidx
  split <;> omega

/-- The round key of round `r`: `K[KIDX(r)]`. -/
def roundKey (k : Vector Word 8) (r : Nat) : Word := k[kidx r]'(kidx_lt r)

/-! ## Block transform -/

/-- One round on the pair (`A`, `B`) (R62). -/
def cipherRound (t : SBox) (k : Word) (p : Word × Word) : Word × Word :=
  (roundF t (p.1 + k) ^^^ p.2, p.1)

/-- The pair after the first `n` rounds. -/
def cipherRounds (t : SBox) (k : Vector Word 8) : Nat → Word × Word → Word × Word
  | 0, p => p
  | n + 1, p => cipherRound t (roundKey k n) (cipherRounds t k n p)

/-- Round 31: no swap (R63). -/
def finalRound (t : SBox) (k : Word) (p : Word × Word) : Word × Word :=
  (p.1, p.2 ^^^ roundF t (p.1 + k))

/-- `Block(A, B)` (R63). -/
def cipherBlock (t : SBox) (k : Vector Word 8) (p : Word × Word) : Word × Word :=
  finalRound t (roundKey k 31) (cipherRounds t k 31 p)

/-! ## Counter -/

/-- `CAdd(x, c)`, the carry-aware addition (R64). -/
def cAdd (x c : Word) : Word :=
  if x + c < x ∨ x + c < c then x + c + 1#32 else x + c

/-- `Advance(A, B)` (R65). -/
def advance (p : Word × Word) : Word × Word :=
  (cAdd p.1 Config.lowStep, p.2 + Config.highStep)

/-! ## Keystream -/

/-- Keystream byte `j` of a group: bits `8j+7:8j` of `{GB, GA}` (R67, R68). -/
def keystreamByte (g : Word × Word) (j : Nat) : Byte := (g.2 ++ g.1).extractLsb' (8 * j) 8

/-- A group of at most 8 source bytes combined with the leading keystream bytes (R68). -/
def combineGroup (g : Word × Word) (src : List Byte) : List Byte :=
  src.mapIdx fun j v => v ^^^ keystreamByte g j

/-! ## The transform on the engine's registers -/

/-- `K[0..7]` loaded from the key (R60, R69). -/
def Engine.loadKey (e : Engine) (key : Key) : Engine := { e with k := keyWords key }

/-- The counter pair (`A`, `B`). -/
def Engine.counter (e : Engine) : Word × Word := (e.a, e.b)

/-- `(A, B) <- p`. -/
def Engine.setCounter (e : Engine) (p : Word × Word) : Engine := { e with a := p.1, b := p.2 }

/-- The keystream value of the group, (`GA`, `GB`). -/
def Engine.group (e : Engine) : Word × Word := (e.ga, e.gb)

/-- `(GA, GB) <- p`. -/
def Engine.setGroup (e : Engine) (p : Word × Word) : Engine := { e with ga := p.1, gb := p.2 }

/-- The priming step (R66): the counter pair is loaded from the sync vector and one block transform runs over it. -/
def Engine.prime (t : SBox) (sync : Word × Word) (e : Engine) : Engine :=
  e.setCounter (cipherBlock t e.k sync)

/-- One keystream group (R67): the counter pair advances and keeps the advanced value, and the block transform of a
copy goes to `GA`, `GB`. -/
def Engine.nextGroup (t : SBox) (e : Engine) : Engine :=
  (e.setCounter (advance e.counter)).setGroup (cipherBlock t e.k (advance e.counter))

/-- The loop of R69 over `n` groups of the source: the output and the engine afterwards. -/
def cryptGroups (t : SBox) : Nat → Engine → List Byte → List Byte × Engine
  | 0, e, _ => ([], e)
  | n + 1, e, src =>
    let e' := e.nextGroup t
    let r := cryptGroups t n e' (src.drop 8)
    (combineGroup e'.group (src.take 8) ++ r.1, r.2)

/-- The number of groups of a source of `n` bytes, `ceil(n / 8)`. -/
def groupCount (n : Nat) : Nat := (n + 7) / 8

/-- The wipe (R71): every register of the engine is written with zero. -/
def Engine.wipe (e : Engine) : Engine :=
  { e with k := Engine.zero.k, a := 0#32, b := 0#32, ga := 0#32, gb := 0#32 }

/-- The engine after the key has been loaded and the priming step has run (R69). -/
def Engine.start (t : SBox) (sync : Word × Word) (key : Key) (e : Engine) : Engine :=
  (e.loadKey key).prime t sync

/-- `Transform(key, src)` on an engine (R69): the output and the wiped engine. -/
def Engine.transform (t : SBox) (sync : Word × Word) (key : Key) (src : List Byte) (e : Engine) :
    List Byte × Engine :=
  let r := cryptGroups t (groupCount src.length) (e.start t sync key) src
  (r.1, r.2.wipe)

/-- `Transform(key, src)` as a function of the table, the sync vector, the key and the source alone (R69, R70 (b)). -/
def transform (t : SBox) (sync : Word × Word) (key : Key) (src : List Byte) : List Byte :=
  (Engine.zero.transform t sync key src).1

end Sys2Proof.Machine
end

