-- ==== Sys2Proof/Machine/Operands.lean ====
section
/-! DEFINITION. The operand forms: operand registers, secure-buffer slots, vaults, and the key source of `XFORM`.
A slot or vault field that is not below `NSB` or `NVAULT` names nothing, and the command is illegal (30_encoding.md
R47); the decoder lets no such command through, so that only matters to a command given to `exec` directly. Log
entry 8. -/

namespace Sys2Proof.Machine

/-! ## Registers -/

/-- `x[r]` (10_state.md R6). -/
def State.reg (s : State) (r : Reg) : Word := s.regs[r.val]

/-- `x[r] <- v`. -/
def State.setReg (s : State) (r : Reg) (v : Word) : State := { s with regs := s.regs.set r.val v }

/-- The post-increment of `STB` and `LDB`: `x[r] <- (x[r] + 1) mod 2^32`. -/
def State.bumpReg (s : State) (r : Reg) : State := s.setReg r (s.reg r + 1#32)

/-! ## Secure-buffer slots -/

/-- Slot `b`, if the instance has it. -/
def State.slot? (s : State) (b : SlotIx) : Option Slot := s.slots[b.val]?

/-- Replace slot `b`. -/
def State.setSlot (s : State) (b : SlotIx) (sl : Slot) : State :=
  { s with slots := s.slots.set b.val sl }

/-- Byte `i` of a slot's storage. -/
def Slot.byte (sl : Slot) (i : Nat) : Byte := sl.bytes.getD i 0#8

/-- The buffer's content: bytes `0..LEN-1` (10_state.md R13). -/
def Slot.content (sl : Slot) : List Byte := (List.range sl.len).map sl.byte

/-- A live slot of `cap` bytes holding `vs`, its tail zero (43_secure_buffer.md R87). -/
def Slot.live (cap : Nat) (vs : List Byte) : Slot :=
  { valid := true, len := vs.length, bytes := vs ++ List.replicate (cap - vs.length) 0#8 }

/-- The first `LEN` bytes replaced, the rest as it was (43_secure_buffer.md R89). -/
def Slot.refill (sl : Slot) (vs : List Byte) : Slot :=
  { sl with bytes := vs ++ sl.bytes.drop vs.length }

/-- Bytes `0..31` of a slot, as a key (42_cipher_commands.md R84). -/
def Slot.key (sl : Slot) : Key := Vector.ofFn fun i => sl.byte i.val

/-- The content with zeros after it up to 32 bytes (44_vault_guard.md R96). -/
def Slot.paddedKey (sl : Slot) : Key :=
  Vector.ofFn fun i => if i.val < sl.len then sl.byte i.val else 0#8

/-! ## Vaults -/

/-- Vault `v`, if the instance has it. -/
def State.vault? (s : State) (v : VaultIx) : Option Vault := s.vaults[v.val]?

/-- Replace vault `v`. -/
def State.setVault (s : State) (v : VaultIx) (x : Vault) : State :=
  { s with vaults := s.vaults.set v.val x }

/-- The byte-wise XOR combiner over all 32 positions (44_vault_guard.md R93 to R95). -/
def keyXor (x y : Key) : Key := Vector.ofFn fun i => x[i.val] ^^^ y[i.val]

/-- `Lock` with a given pad (44_vault_guard.md R93): the old mask is overwritten, not XORed in. -/
def Vault.lock (x : Vault) (pad : Key) : Vault := { x with data := keyXor x.data pad, mask := pad }

/-- `Unlock` (44_vault_guard.md R94): the mask stays. -/
def Vault.unlock (x : Vault) : Vault := { x with data := keyXor x.data x.mask }

/-! ## The key source of `XFORM` -/

/-- The 32 key bytes a key source gives, or the error `XFORM` raises for it (42_cipher_commands.md R84): first
whether it holds a key at all, then whether the slot's length is 32. -/
def State.keyOf (s : State) : KeySrc → Except ErrCode Key
  | .slot b =>
    match s.slot? b with
    | none => .error .illegalCommand
    | some sl =>
      if sl.valid = false then .error .stateError
      else if sl.len ≠ Config.keySize then .error .lengthError
      else .ok sl.key
  | .vault v =>
    match s.vault? v with
    | none => .error .illegalCommand
    | some x =>
      if x.valid = false ∨ x.guard = false then .error .stateError
      else .ok x.data

end Sys2Proof.Machine
end

