-- ==== Sys2Proof/Machine/Flags.lean ====
section
/-! DEFINITION. The error codes as numbers and the control registers, each computed from state on every read
(10_state.md R17 to R21). `LASTERR` is the only flag-like state of the block (R17). -/

namespace Sys2Proof.Machine

/-- The number of an error code (60_exceptions.md R105). -/
def errNumber : ErrCode → BitVec 4
  | .success => 0#4
  | .configurationError => 1#4
  | .lengthError => 2#4
  | .stateError => 3#4
  | .addressError => 4#4
  | .illegalCommand => 5#4

/-- `n` flags side by side, flag `i` in bit `i`. -/
def flagBits : (n : Nat) → (Nat → Bool) → BitVec n
  | 0, _ => 0#0
  | n + 1, f => BitVec.cons (f n) (flagBits n f)

/-- `SBVALID[b]`; 0 for a slot the instance does not have. -/
def State.slotValid (s : State) (b : Nat) : Bool :=
  match s.slots[b]? with
  | some sl => sl.valid
  | none => false

/-- `VVALID[v]`; 0 for a vault the instance does not have. -/
def State.vaultValid (s : State) (v : Nat) : Bool :=
  match s.vaults[v]? with
  | some x => x.valid
  | none => false

/-- `GUARD[v]`; 0 for a vault the instance does not have. -/
def State.vaultGuard (s : State) (v : Nat) : Bool :=
  match s.vaults[v]? with
  | some x => x.guard
  | none => false

/-- `STATUS` (10_state.md R17): reserved 31:24, `GUARD` 23:20, `VVALID` 19:16, `SBVALID` 15:8, reserved 7:4,
`LASTERR` 3:0. -/
def State.status (s : State) : Word :=
  0#8 ++ flagBits 4 s.vaultGuard ++ flagBits 4 s.vaultValid ++ flagBits 8 s.slotValid ++ 0#4 ++
    errNumber s.lastErr

/-- `CONFIG` (10_state.md R19): 0, `KEY_SIZE`, `SB_CAP`, `NVAULT`, `NSB`. -/
def configWord (p : Params) : Word :=
  0#8 ++ BitVec.ofNat 8 Config.keySize ++ BitVec.ofNat 8 p.sbCap ++ BitVec.ofNat 4 p.nvault ++
    BitVec.ofNat 4 p.nsb

/-- `XMEMSZ` (10_state.md R20). -/
def xmemszWord (p : Params) : Word := BitVec.ofNat 32 p.xmemSize

/-- The content of a control register (10_state.md R21). -/
def State.csr (s : State) : Csr → Word
  | .id => Config.idValue
  | .status => s.status
  | .sync0 => s.sync0
  | .sync1 => s.sync1
  | .config => configWord s.params
  | .xmemsz => xmemszWord s.params

end Sys2Proof.Machine
end

