-- ==== Sys2Proof/Machine/CipherCommands.lean ====
section
/-! DEFINITION. The meanings of `CFGSBOX`, `CFGSYNC`, `XFORM` (42_cipher_commands.md). -/

namespace Sys2Proof.Machine

/-- The table that 128 bytes of `XMEM` give: byte `k` is entry `k mod 16` of group `k div 16`, its low four bits
(R82). -/
def State.tableAt (s : State) (a : Nat) : SBox :=
  Vector.ofFn fun g => Vector.ofFn fun e => (s.xmemByte (a + (16 * g.val + e.val))).setWidth 4

/-- Some byte of the 128 is above 15 (R82). -/
def State.tableMalformed (s : State) (a : Nat) : Bool :=
  (List.range Config.tableBytes).any fun k => decide (15 < (s.xmemByte (a + k)).toNat)

/-- `CFGSBOX ra, rn` (R82). -/
def execCfgsbox (ra rn : Reg) (s : State) : Result :=
  if (s.reg rn).toNat < Config.tableBytes then raise .configurationError s
  else if ¬ s.InRange (s.reg ra) Config.tableBytes then raise .addressError s
  else if s.tableMalformed (s.reg ra).toNat then raise .configurationError s
  else respond 0#32 { s with sbox := s.tableAt (s.reg ra).toNat }

/-- `CFGSYNC ra, rb` (R83). -/
def execCfgsync (ra rb : Reg) (s : State) : Result :=
  respond 0#32 { s with sync0 := s.reg ra, sync1 := s.reg rb }

/-- The transform of `n` bytes of `XMEM` from `src` to `dst` under a key (R84): all is read before anything is
written (20_memory.md R37), and the engine is left wiped (40_cipher_datapath.md R71). -/
def State.transformXmem (s : State) (key : Key) (dst src n : Nat) : State :=
  let r := s.engine.transform s.sbox (s.sync0, s.sync1) key (s.xmemBytes src n)
  { s.storeBytes dst r.1 with engine := r.2 }

/-- `XFORM rd, rs, rn, ks` (R84). -/
def execXform (rd rs rn : Reg) (ks : KeySrc) (s : State) : Result :=
  match s.keyOf ks with
  | .error e => raise e s
  | .ok key =>
    if ¬ s.InRange (s.reg rs) (s.reg rn).toNat ∨ ¬ s.InRange (s.reg rd) (s.reg rn).toNat then
      raise .addressError s
    else if Overlap (s.reg rd) (s.reg rs) (s.reg rn).toNat then raise .addressError s
    else respond 0#32
      (s.transformXmem key (s.reg rd).toNat (s.reg rs).toNat (s.reg rn).toNat)

end Sys2Proof.Machine
end

