-- ==== Sys2Proof/Machine/HostCommands.lean ====
section
/-! DEFINITION. The meanings of `NOP`, `LI`, `LIH`, `GETR`, `RDC`, `STB`, `LDB`, `STW`, `LDW` (41_host_commands.md). -/

namespace Sys2Proof.Machine

/-- `NOP` (R73). -/
def execNop (s : State) : Result := respond 0#32 s

/-- `LI rd, imm16` (R74). -/
def execLi (rd : Reg) (imm : BitVec 16) (s : State) : Result :=
  respond 0#32 (s.setReg rd (imm.setWidth 32))

/-- `LIH rd, imm16` (R75). -/
def execLih (rd : Reg) (imm : BitVec 16) (s : State) : Result :=
  respond 0#32 (s.setReg rd (imm ++ (s.reg rd).extractLsb' 0 16))

/-- `GETR rs` (R76). -/
def execGetr (rs : Reg) (s : State) : Result := respond (s.reg rs) s

/-- `RDC csr` (R77): `STATUS` is sampled before `LASTERR` is written. -/
def execRdc (csr : Csr) (s : State) : Result := respond (s.csr csr) s

/-- `STB ra, imm8` (R78). -/
def execStb (ra : Reg) (imm : Byte) (s : State) : Result :=
  if s.InRange (s.reg ra) 1 then
    respond 0#32 ((s.storeBytes (s.reg ra).toNat [imm]).bumpReg ra)
  else raise .addressError s

/-- `LDB ra` (R79). -/
def execLdb (ra : Reg) (s : State) : Result :=
  if s.InRange (s.reg ra) 1 then
    respond ((s.xmemByte (s.reg ra).toNat).setWidth 32) (s.bumpReg ra)
  else raise .addressError s

/-- `STW ra, rb` (R80). -/
def execStw (ra rb : Reg) (s : State) : Result :=
  if s.InRange (s.reg ra) 4 then
    respond 0#32 (s.storeWord (s.reg ra).toNat (s.reg rb))
  else raise .addressError s

/-- `LDW rd, ra` (R81): the address is read before the register is written. -/
def execLdw (rd ra : Reg) (s : State) : Result :=
  if s.InRange (s.reg ra) 4 then
    respond (s.loadWord (s.reg ra).toNat) (s.setReg rd (s.loadWord (s.reg ra).toNat))
  else raise .addressError s

end Sys2Proof.Machine
end

