-- ==== Sys2Proof/Machine/SecureBuffer.lean ====
section
/-! DEFINITION. The meanings of `SBLD`, `SBREL`, `SBRAND`, `SBST`, `SBLEN` (43_secure_buffer.md). -/

namespace Sys2Proof.Machine

/-- `SBLD sb, ra, rn` (R87): the source bytes are moved into the slot and zeroed where they stood. -/
def execSbld (sb : SlotIx) (ra rn : Reg) (s : State) : Result :=
  match s.slot? sb with
  | none => raise .illegalCommand s
  | some sl =>
    if sl.valid = true then raise .stateError s
    else if (s.reg rn).toNat > s.params.sbCap then raise .lengthError s
    else if ¬ s.InRange (s.reg ra) (s.reg rn).toNat then raise .addressError s
    else respond 0#32
      ((s.setSlot sb (Slot.live s.params.sbCap
          (s.xmemBytes (s.reg ra).toNat (s.reg rn).toNat))).storeBytes
        (s.reg ra).toNat (List.replicate (s.reg rn).toNat 0#8))

/-- `SBREL sb, imm8` (R88): unconditional, over the whole capacity (R86). -/
def execSbrel (sb : SlotIx) (imm : Byte) (s : State) : Result :=
  match s.slot? sb with
  | none => raise .illegalCommand s
  | some _ => respond 0#32 (s.setSlot sb (Slot.free s.params.sbCap imm))

/-- `SBRAND sb` (R89). -/
def execSbrand (sb : SlotIx) (s : State) : Result :=
  match s.slot? sb with
  | none => raise .illegalCommand s
  | some sl =>
    if sl.valid = false then raise .stateError s
    else respond 0#32
      ((s.setSlot sb (sl.refill (s.rngBytes sl.len))).rngAdvance sl.len)

/-- `SBST sb, ra` (R90). -/
def execSbst (sb : SlotIx) (ra : Reg) (s : State) : Result :=
  match s.slot? sb with
  | none => raise .illegalCommand s
  | some sl =>
    if sl.valid = false then raise .stateError s
    else if ¬ s.InRange (s.reg ra) sl.len then raise .addressError s
    else respond (BitVec.ofNat 32 sl.len) (s.storeBytes (s.reg ra).toNat sl.content)

/-- `SBLEN sb` (R91). -/
def execSblen (sb : SlotIx) (s : State) : Result :=
  match s.slot? sb with
  | none => raise .illegalCommand s
  | some sl =>
    if sl.valid = false then raise .stateError s
    else respond (BitVec.ofNat 32 sl.len) s

end Sys2Proof.Machine
end

