-- ==== Sys2Proof/Machine/VaultGuard.lean ====
section
/-! DEFINITION. The meanings of `VNEW`, `GACQ`, `GREL`, `VRD`, `VDEL` (44_vault_guard.md). -/

namespace Sys2Proof.Machine

/-- `VNEW v, sb` (R96): the padded content goes into the vault, the slot is wiped with zeros, and the vault is locked
under a fresh pad. -/
def execVnew (v : VaultIx) (sb : SlotIx) (s : State) : Result :=
  match s.vault? v, s.slot? sb with
  | some x, some sl =>
    if x.valid = true then raise .stateError s
    else if sl.valid = false then raise .stateError s
    else if sl.len > Config.keySize then raise .lengthError s
    else respond 0#32
      (((s.setSlot sb (Slot.free s.params.sbCap 0#8)).setVault v
          (Vault.lock { x with valid := true, guard := false, data := sl.paddedKey } s.rngPad)).rngAdvance
        Config.keySize)
  | _, _ => raise .illegalCommand s

/-- `GACQ v` (R97). -/
def execGacq (v : VaultIx) (s : State) : Result :=
  match s.vault? v with
  | none => raise .illegalCommand s
  | some x =>
    if x.valid = false then raise .stateError s
    else if x.guard = true then raise .stateError s
    else respond 0#32 (s.setVault v { x.unlock with guard := true })

/-- `GREL v` (R98). -/
def execGrel (v : VaultIx) (s : State) : Result :=
  match s.vault? v with
  | none => raise .illegalCommand s
  | some x =>
    if x.valid = false then raise .stateError s
    else if x.guard = false then raise .stateError s
    else respond 0#32
      ((s.setVault v { x.lock s.rngPad with guard := false }).rngAdvance Config.keySize)

/-- `VRD v, ra` (R99). -/
def execVrd (v : VaultIx) (ra : Reg) (s : State) : Result :=
  match s.vault? v with
  | none => raise .illegalCommand s
  | some x =>
    if x.valid = false ∨ x.guard = false then raise .stateError s
    else if ¬ s.InRange (s.reg ra) Config.keySize then raise .addressError s
    else respond 0#32 (s.storeBytes (s.reg ra).toNat x.data.toList)

/-- `VDEL v` (R100): both stores are erased with zeros, also when there is no vault. -/
def execVdel (v : VaultIx) (s : State) : Result :=
  match s.vault? v with
  | none => raise .illegalCommand s
  | some x =>
    if x.guard = true then raise .stateError s
    else respond 0#32
      (s.setVault v { x with valid := false, data := Key.zero, mask := Key.zero })

end Sys2Proof.Machine
end

