-- ==== Sys2Proof/Machine/Dispatch.lean ====
section
/-! DEFINITION. One arm per command: its meaning. -/

namespace Sys2Proof.Machine

def exec (i : Instr) (s : State) : Host.Outcome State Fault Refusal :=
  match i with
  | .nop => Sys2Proof.Machine.execNop s
  | .li rd imm => Sys2Proof.Machine.execLi rd imm s
  | .lih rd imm => Sys2Proof.Machine.execLih rd imm s
  | .getr rs => Sys2Proof.Machine.execGetr rs s
  | .rdc csr => Sys2Proof.Machine.execRdc csr s
  | .stb ra imm => Sys2Proof.Machine.execStb ra imm s
  | .ldb ra => Sys2Proof.Machine.execLdb ra s
  | .stw ra rb => Sys2Proof.Machine.execStw ra rb s
  | .ldw rd ra => Sys2Proof.Machine.execLdw rd ra s
  | .cfgsbox ra rn => Sys2Proof.Machine.execCfgsbox ra rn s
  | .cfgsync ra rb => Sys2Proof.Machine.execCfgsync ra rb s
  | .xform rd rs rn ks => Sys2Proof.Machine.execXform rd rs rn ks s
  | .sbld sb ra rn => Sys2Proof.Machine.execSbld sb ra rn s
  | .sbrel sb imm => Sys2Proof.Machine.execSbrel sb imm s
  | .sbrand sb => Sys2Proof.Machine.execSbrand sb s
  | .sbst sb ra => Sys2Proof.Machine.execSbst sb ra s
  | .sblen sb => Sys2Proof.Machine.execSblen sb s
  | .vnew v sb => Sys2Proof.Machine.execVnew v sb s
  | .gacq v => Sys2Proof.Machine.execGacq v s
  | .grel v => Sys2Proof.Machine.execGrel v s
  | .vrd v ra => Sys2Proof.Machine.execVrd v ra s
  | .vdel v => Sys2Proof.Machine.execVdel v s

end Sys2Proof.Machine
end

