-- ==== Sys2Proof/Machine/Fetch.lean ====
section
/-! DEFINITION. What one host input does (30_encoding.md R50, R52; 70_reset_and_hazards.md R120, R121). -/

namespace Sys2Proof.Machine

/-- A command word: the command it decodes to, or `IllegalCommand`, raised before any state is read (60_exceptions.md
R107). -/
def runWord (w : Word) (s : State) : Result :=
  match decode s.params w with
  | .ok i => exec i s
  | .error _ => raise .illegalCommand s

/-- A host input: a command word is executed, the reset input resets. -/
def runInput (x : HostInput) (s : State) : Result :=
  match x with
  | .command w => runWord w s
  | .reset => .next s.takeReset

/-- The host's next input, if it presents one; otherwise nothing changes (60_exceptions.md R119). -/
def runPort (s : State) : Result :=
  match s.nextInput? with
  | none => .next s
  | some (x, s') => runInput x s'

/-- The command word that a table word of `nbits` bits is: one 32-bit word, the bits above `nbits` zero. -/
def tableWord (nbits w : Nat) : Word := BitVec.ofNat 32 (w % 2 ^ nbits)

end Sys2Proof.Machine
end

