-- ==== Sys2Proof/Machine/Step.lean ====
section
/-! DEFINITION. One step: the block takes what the host presents next. -/

namespace Sys2Proof.Machine

/-- One step of the block: one command, one reset, or nothing where the host presents nothing. -/
def step (s : State) : Host.Outcome State Fault Refusal := runPort s

/-- The state in which the host presents the given word first, before whatever it was going to present. The block
fetches nothing (10_state.md R7), so this is where the next command comes from. -/
def State.withFetchWord (s : State) (nbits w : Nat) : State := s.present (tableWord nbits w)

end Sys2Proof.Machine
end

