-- ==== Sys2Proof/Machine/Assembler.lean ====
section
/-! DEFINITION. The assembler's text of a command (30_encoding.md R55) and the expansions of its two
pseudo-instructions (R56). Numbers are written in decimal, one of the two spellings R55 allows. Log entry 12. -/

namespace Sys2Proof.Machine

def asmReg (r : Reg) : String := "r" ++ toString r.val
def asmSlot (sb : SlotIx) : String := "sb" ++ toString sb.val
def asmVault (v : VaultIx) : String := "v" ++ toString v.val

def asmKeySrc : KeySrc → String
  | .slot sb => asmSlot sb
  | .vault v => asmVault v

def asmCsr : Csr → String
  | .id => "0"
  | .status => "1"
  | .sync0 => "2"
  | .sync1 => "3"
  | .config => "4"
  | .xmemsz => "5"

def asmNum (n : Nat) : String := toString n

/-- The mnemonic in upper case, one space, the operands separated by commas (R55). -/
def asmLine : String → List String → String
  | m, [] => m
  | m, o :: os => m ++ " " ++ os.foldl (fun acc x => acc ++ ", " ++ x) o

/-- The assembler line of a command (R55). -/
def asmText : Instr → String
  | .nop => asmLine "NOP" []
  | .li rd imm => asmLine "LI" [asmReg rd, asmNum imm.toNat]
  | .lih rd imm => asmLine "LIH" [asmReg rd, asmNum imm.toNat]
  | .getr rs => asmLine "GETR" [asmReg rs]
  | .rdc csr => asmLine "RDC" [asmCsr csr]
  | .stb ra imm => asmLine "STB" [asmReg ra, asmNum imm.toNat]
  | .ldb ra => asmLine "LDB" [asmReg ra]
  | .stw ra rb => asmLine "STW" [asmReg ra, asmReg rb]
  | .ldw rd ra => asmLine "LDW" [asmReg rd, asmReg ra]
  | .cfgsbox ra rn => asmLine "CFGSBOX" [asmReg ra, asmReg rn]
  | .cfgsync ra rb => asmLine "CFGSYNC" [asmReg ra, asmReg rb]
  | .xform rd rs rn ks => asmLine "XFORM" [asmReg rd, asmReg rs, asmReg rn, asmKeySrc ks]
  | .sbld sb ra rn => asmLine "SBLD" [asmSlot sb, asmReg ra, asmReg rn]
  | .sbrel sb imm => asmLine "SBREL" [asmSlot sb, asmNum imm.toNat]
  | .sbrand sb => asmLine "SBRAND" [asmSlot sb]
  | .sbst sb ra => asmLine "SBST" [asmSlot sb, asmReg ra]
  | .sblen sb => asmLine "SBLEN" [asmSlot sb]
  | .vnew v sb => asmLine "VNEW" [asmVault v, asmSlot sb]
  | .gacq v => asmLine "GACQ" [asmVault v]
  | .grel v => asmLine "GREL" [asmVault v]
  | .vrd v ra => asmLine "VRD" [asmVault v, asmReg ra]
  | .vdel v => asmLine "VDEL" [asmVault v]

/-- `LI32 rd, imm32`: `LI` first, because it clears the upper half (R56). -/
def pseudoLi32 (rd : Reg) (imm : Word) : List Instr :=
  [.li rd (imm.extractLsb' 0 16), .lih rd (imm.extractLsb' 16 16)]

/-- `SBREL sb` with the fill left out: fill 0 (R56). -/
def pseudoSbrel (sb : SlotIx) : List Instr := [.sbrel sb 0#8]

end Sys2Proof.Machine
end

