-- ==== Sys2Proof/Safety.lean ====
section
/-! DEFINITION. The terms claims are stated in: the invariant of the block between commands, what a command answers,
what it leaves alone, which commands may write what, and what the host can see. -/

namespace Sys2Proof.Machine

/-! ## The invariant between commands -/

/-- The slot invariant (10_state.md R13, R14). -/
structure Slot.Inv (cap : Nat) (sl : Slot) : Prop where
  size : sl.bytes.length = cap
  freeSlot : sl.valid = false → sl.len = 0 ∧ ∃ fill, sl.bytes = List.replicate cap fill
  liveSlot : sl.valid = true → sl.len ≤ cap ∧ ∀ i, sl.len ≤ i → sl.byte i = 0#8

/-- The vault invariant for an absent vault (10_state.md R16): unguarded, both stores zero. -/
structure Vault.Inv (x : Vault) : Prop where
  absent : x.valid = false → x.guard = false ∧ x.data = Key.zero ∧ x.mask = Key.zero

/-- What holds of the block between commands: legal parameters (00_scope.md R4), memory in its form, `NSB` slots and
`NVAULT` vaults each within its invariant, and every register of the engine zero (10_state.md R10, R11). -/
structure State.Inv (s : State) : Prop where
  params : s.params.Legal
  xmem : Memory.wf s.params.xmemSize s.xmem
  slotCount : s.slots.length = s.params.nsb
  slots : ∀ sl ∈ s.slots, sl.Inv s.params.sbCap
  vaultCount : s.vaults.length = s.params.nvault
  vaults : ∀ x ∈ s.vaults, x.Inv
  engine : s.engine = Engine.zero

/-- The plaintext key `P` of a vault (10_state.md R16): `DATA` while the guard is active, `DATA xor MASK` while it is
not. -/
def Vault.plainKey (x : Vault) : Key := if x.guard then x.data else keyXor x.data x.mask

/-! ## Answers -/

/-- The response and `LASTERR` a command leaves (10_state.md R22, R24). -/
structure Answers (t : State) (e : ErrCode) (v : Word) : Prop where
  lastErr : t.lastErr = e
  response : t.response = some { err := e, val := v }

/-- The command ends with the error and has no other effect (60_exceptions.md R112). -/
def Fails (i : Instr) (s : State) (e : ErrCode) : Prop :=
  exec i s = .next { s with lastErr := e, response := some { err := e, val := 0#32 } }

/-- A word of opcode `op` that is not the word of a command among `mine` with legal fields (a nonzero bit in a field
that must be 0, an index out of range) is answered with `IllegalCommand` and changes nothing but `LASTERR`, the response
and the port it was taken from (30_encoding.md R50, R52; 60_exceptions.md R107). -/
def OtherWordsAreIllegal (op : Byte) (mine : Instr → Prop) : Prop :=
  ∀ (s : State) (w : Word) (rest : List HostInput),
    s.port = .command w :: rest → w.extractLsb' 24 8 = op →
    (∀ i : Instr, mine i → i.wellFormed s.params = true → encode i ≠ w) →
      step s = .next
        { s with
          port := rest
          lastErr := .illegalCommand
          response := some { err := .illegalCommand, val := 0#32 } }

/-! ## What is left alone -/

def SameRegs (s t : State) : Prop := ∀ r : Reg, t.reg r = s.reg r

def SameRegsBut (s t : State) (r0 : Reg) : Prop := ∀ r : Reg, r ≠ r0 → t.reg r = s.reg r

/-- The sync vector and the table. -/
structure SameCipherConfig (s t : State) : Prop where
  sync0 : t.sync0 = s.sync0
  sync1 : t.sync1 = s.sync1
  sbox : t.sbox = s.sbox

def SameEngine (s t : State) : Prop := t.engine = s.engine

def SameXmem (s t : State) : Prop := ∀ x : Nat, t.xmemByte x = s.xmemByte x

/-- Every byte of `XMEM` outside `a..a+n-1`. -/
def SameXmemOutside (s t : State) (a n : Nat) : Prop :=
  ∀ x : Nat, x < a ∨ a + n ≤ x → t.xmemByte x = s.xmemByte x

def SameSlots (s t : State) : Prop := t.slots = s.slots

def SameSlotsBut (s t : State) (b : SlotIx) : Prop :=
  ∀ j : Nat, j ≠ b.val → t.slots[j]? = s.slots[j]?

def SameVaults (s t : State) : Prop := t.vaults = s.vaults

def SameVaultsBut (s t : State) (v : VaultIx) : Prop :=
  ∀ j : Nat, j ≠ v.val → t.vaults[j]? = s.vaults[j]?

/-- No byte was drawn from the random source. -/
structure SameRng (s t : State) : Prop where
  rngIn : t.rngIn = s.rngIn
  draws : t.draws = s.draws

/-- `n` bytes were drawn. -/
structure Drew (s t : State) (n : Nat) : Prop where
  rngIn : t.rngIn = s.rngIn.drop n
  draws : t.draws = s.draws + n

/-- The instance's parameters, what the host presents next, and the count of resets: no command touches them. -/
structure SameHost (s t : State) : Prop where
  params : t.params = s.params
  port : t.port = s.port
  resets : t.resets = s.resets

/-- The engine, the table, the sync vector, the random source and the host's side: what the commands that only move
data between registers, `XMEM`, slots and vaults leave alone. -/
structure SameEngineSide (s t : State) : Prop where
  cipher : SameCipherConfig s t
  engine : SameEngine s t
  host : SameHost s t

/-! ## Which commands may write what -/

/-- The commands that may write an operand register, and the register (10_state.md R6). -/
def writtenReg : Instr → Option Reg
  | .li rd _ => some rd
  | .lih rd _ => some rd
  | .ldw rd _ => some rd
  | .stb ra _ => some ra
  | .ldb ra => some ra
  | _ => none

/-- The `XMEM` bytes a command may write: start address and length (20_memory.md R35). -/
def writtenXmem (i : Instr) (s : State) : Nat × Nat :=
  match i with
  | .stb ra _ => ((s.reg ra).toNat, 1)
  | .stw ra _ => ((s.reg ra).toNat, 4)
  | .xform rd _ rn _ => ((s.reg rd).toNat, (s.reg rn).toNat)
  | .sbld _ ra rn => ((s.reg ra).toNat, (s.reg rn).toNat)
  | .sbst sb ra =>
    ((s.reg ra).toNat, match s.slot? sb with | some sl => sl.len | none => 0)
  | .vrd _ ra => ((s.reg ra).toNat, 32)
  | _ => (0, 0)

/-- The slot a command may change (10_state.md section 1). -/
def writtenSlot : Instr → Option SlotIx
  | .sbld sb _ _ => some sb
  | .sbrel sb _ => some sb
  | .sbrand sb => some sb
  | .vnew _ sb => some sb
  | _ => none

/-- The vault a command may change (44_vault_guard.md R102). -/
def writtenVault : Instr → Option VaultIx
  | .vnew v _ => some v
  | .gacq v => some v
  | .grel v => some v
  | .vdel v => some v
  | _ => none

/-- The vault a command names, as an operand or as a key source (44_vault_guard.md R103). -/
def namedVault : Instr → Option VaultIx
  | .vnew v _ => some v
  | .gacq v => some v
  | .grel v => some v
  | .vrd v _ => some v
  | .vdel v => some v
  | .xform _ _ _ (.vault v) => some v
  | _ => none

/-- The commands that draw from the random source (10_state.md R23). -/
def mayDraw : Instr → Bool
  | .sbrand _ => true
  | .vnew _ _ => true
  | .grel _ => true
  | _ => false

/-- The errors a legal command can raise (60_exceptions.md R106). -/
def raisable : Instr → List ErrCode
  | .nop => []
  | .li _ _ => []
  | .lih _ _ => []
  | .getr _ => []
  | .rdc _ => []
  | .stb _ _ => [.addressError]
  | .ldb _ => [.addressError]
  | .stw _ _ => [.addressError]
  | .ldw _ _ => [.addressError]
  | .cfgsbox _ _ => [.configurationError, .addressError]
  | .cfgsync _ _ => []
  | .xform _ _ _ (.slot _) => [.stateError, .lengthError, .addressError]
  | .xform _ _ _ (.vault _) => [.stateError, .addressError]
  | .sbld _ _ _ => [.stateError, .lengthError, .addressError]
  | .sbrel _ _ => []
  | .sbrand _ => [.stateError]
  | .sbst _ _ => [.stateError, .addressError]
  | .sblen _ => [.stateError]
  | .vnew _ _ => [.stateError, .lengthError]
  | .gacq _ => [.stateError]
  | .grel _ => [.stateError]
  | .vrd _ _ => [.stateError, .addressError]
  | .vdel _ => [.stateError]

/-! ## What the host can see -/

/-- What the host can see of a slot: whether it is live, and if so its length and content (43_secure_buffer.md). -/
def Slot.view (sl : Slot) : Option (Nat × List Byte) :=
  if sl.valid then some (sl.len, sl.content) else none

/-- What the host can see of a vault without reading its key: the two flags (10_state.md R17). -/
def Vault.view (x : Vault) : Bool × Bool := (x.valid, x.guard)

/-- The key a vault lets out: `DATA` while a guard is active (60_exceptions.md R117). -/
def Vault.openKey (x : Vault) : Option Key :=
  if x.valid = true ∧ x.guard = true then some x.data else none

/-- Two states look the same to the host: registers, sync vector, `XMEM`, flags, lengths and contents of live slots,
and the response (92_eei_decisions.md D26). -/
structure LooksSame (s t : State) : Prop where
  params : t.params = s.params
  regs : SameRegs s t
  sync0 : t.sync0 = s.sync0
  sync1 : t.sync1 = s.sync1
  xmem : SameXmem s t
  slots : t.slots.map Slot.view = s.slots.map Slot.view
  vaults : t.vaults.map Vault.view = s.vaults.map Vault.view
  lastErr : t.lastErr = s.lastErr
  response : t.response = s.response

/-- Two states differ at most in what no command lets out: masks, stores of vaults with no active guard, bytes of
free slots and beyond `LEN`, and the engine's hidden registers. -/
structure DifferOnlyInSecrets (s t : State) : Prop where
  looks : LooksSame s t
  sbox : t.sbox = s.sbox
  openKeys : t.vaults.map Vault.openKey = s.vaults.map Vault.openKey
  rngIn : t.rngIn = s.rngIn
  draws : t.draws = s.draws
  resets : t.resets = s.resets

end Sys2Proof.Machine
end

