-- ==== Sys2Proof/Certificates/Slice0/Obligations.lean ====
section
/-! DEFINITION. The statements for the provers. Each docstring names the rule of spec/ the statement formalises. -/

open Sys2Proof Sys2Proof.Machine

/-! ## Encoding -/

/-- 30_encoding.md R50, R51: decoding the word of a command whose fields are legal gives the command back, every
operand at every value. -/
def Obligations.DecodeOfEncodeIsTheCommand : Prop :=
  ∀ (p : Params) (i : Instr), i.wellFormed p = true → decode p (encode i) = .ok i

/-- 30_encoding.md R50, R52: a word that decodes to a command is that command's own word and its fields are legal, so
no bit is ignored and no second word means the same. -/
def Obligations.DecodedWordIsTheCommandsWord : Prop :=
  ∀ (p : Params) (w : Word) (i : Instr),
    decode p w = .ok i → encode i = w ∧ i.wellFormed p = true

/-- 30_encoding.md R55: words of its table of examples decode to the commands they stand for, with the default
parameters. -/
def Obligations.ExampleWordsDecode : Prop :=
  decode Params.default 0x00000000#32 = .ok .nop ∧
  decode Params.default 0x023040FD#32 = .ok (.lih 3 0x40FD) ∧
  decode Params.default 0x04000001#32 = .ok (.rdc .status) ∧
  decode Params.default 0x0A140000#32 = .ok (.stw 1 4) ∧
  decode Params.default 0x10010000#32 = .ok (.cfgsbox 0 1) ∧
  decode Params.default 0x12213000#32 = .ok (.xform 2 1 3 (.slot 0)) ∧
  decode Params.default 0x12223900#32 = .ok (.xform 2 2 3 (.vault 1)) ∧
  decode Params.default 0x212000A5#32 = .ok (.sbrel 2 0xA5) ∧
  decode Params.default 0x33020000#32 = .ok (.vrd 0 2)

/-- 30_encoding.md R52, 60_exceptions.md R107: a word that is not the word of a command with legal fields is
answered with `IllegalCommand` and changes nothing but `LASTERR`, the response and the port it was taken from. -/
def Obligations.IllegalWordChangesOnlyLastErr : Prop :=
  ∀ (s : State) (w : Word) (rest : List HostInput),
    s.port = .command w :: rest →
    (∀ i : Instr, i.wellFormed s.params = true → encode i ≠ w) →
      step s = .next
        { s with
          port := rest
          lastErr := .illegalCommand
          response := some { err := .illegalCommand, val := 0#32 } }

/-- 30_encoding.md R51, R52: a word whose bits 31:24 are none of the 22 opcodes of R51 is rejected as an unknown
opcode, whatever its other bits and whatever the parameters. -/
def Obligations.UnassignedOpcodesAreIllegal : Prop :=
  ∀ (p : Params) (w : Word),
    (w.extractLsb' 24 8).toNat ∉
      [0x00, 0x01, 0x02, 0x03, 0x04, 0x08, 0x09, 0x0A, 0x0B, 0x10, 0x11, 0x12,
        0x20, 0x21, 0x22, 0x23, 0x24, 0x30, 0x31, 0x32, 0x33, 0x34] →
      decode p w = .error .unknownOpcode

/-! ## Steps, host inputs, reset -/

/-- A command word at the port that decodes runs the decoded command on the state without that word, and the step
does nothing else: there is no program counter to move (10_state.md R7, 20_memory.md R38; the port is the model's
own, log entry 2). -/
def Obligations.StepRunsTheDecodedCommand : Prop :=
  ∀ (s : State) (w : Word) (rest : List HostInput) (i : Instr),
    s.port = .command w :: rest → decode s.params w = .ok i →
      step s = exec i { s with port := rest }

/-- 60_exceptions.md R119: where the host presents nothing, nothing changes (log entry 2). -/
def Obligations.StepWithoutInputChangesNothing : Prop :=
  ∀ s : State, s.port = [] → step s = .next s

/-- 10_state.md R25: what the model's reset state holds, with the parameters at their defaults. `XMEM` is unspecified
there, so nothing is said of its bytes. -/
def Obligations.ResetStateHoldsTheResetValues : Prop :=
  (∀ r : Reg, State.reset.reg r = 0#32) ∧
  State.reset.sync0 = 0x40FD452C#32 ∧ State.reset.sync1 = 0xF86EDCDB#32 ∧
  (∀ (g : Fin 8) (n : Nibble), sboxEntry State.reset.sbox g n = Config.sboxReset g n.toFin) ∧
  (∀ r : Nat, r < 32 → roundKey State.reset.engine.k r = 0#32) ∧
  State.reset.engine.a = 0#32 ∧ State.reset.engine.b = 0#32 ∧
  State.reset.engine.ga = 0#32 ∧ State.reset.engine.gb = 0#32 ∧
  State.reset.slots.length = 4 ∧
  (∀ sl ∈ State.reset.slots, sl.valid = false ∧ sl.len = 0 ∧ sl.bytes = List.replicate 64 0#8) ∧
  State.reset.vaults.length = 2 ∧
  (∀ x ∈ State.reset.vaults, x.valid = false ∧ x.guard = false ∧
    ∀ j : Fin 32, x.data[j.val] = 0#8 ∧ x.mask[j.val] = 0#8) ∧
  State.reset.lastErr = .success

/-- 70_reset_and_hazards.md R121, 10_state.md R25: the reset input gives every piece of state its reset value for the
instance's own parameters; `XMEM` is not erased: each byte has a free value, which depends on what it held before and
may be that (log entry 4). That the parameters, the port and the random source stay is the model's (log entry 3). -/
def Obligations.ResetInputGivesTheResetValues : Prop :=
  ∀ (s : State) (rest : List HostInput), s.port = .reset :: rest →
    ∃ t, step s = .next t ∧
      (∀ r : Reg, t.reg r = 0#32) ∧
      t.sync0 = 0x40FD452C#32 ∧ t.sync1 = 0xF86EDCDB#32 ∧
      (∀ (g : Fin 8) (n : Nibble), sboxEntry t.sbox g n = Config.sboxReset g n.toFin) ∧
      t.engine = Engine.zero ∧
      t.slots.length = s.params.nsb ∧
      (∀ sl ∈ t.slots, sl.valid = false ∧ sl.len = 0 ∧
        sl.bytes = List.replicate s.params.sbCap 0#8) ∧
      t.vaults.length = s.params.nvault ∧
      (∀ x ∈ t.vaults, x.valid = false ∧ x.guard = false ∧ x.data = Key.zero ∧ x.mask = Key.zero) ∧
      t.lastErr = .success ∧ t.response = none ∧
      (∀ a : Nat, t.xmemByte a = Config.xmemReset (s.resets + 1) a (s.xmemByte a)) ∧
      t.params = s.params ∧ t.port = rest ∧ SameRng s t

/-- The reset state meets the invariant that every step keeps (log entry 9 for what the invariant is for). -/
def Obligations.ResetStateMeetsTheInvariant : Prop := State.reset.Inv

/-- The invariant between commands (10_state.md sections 4, 6, 7: the schedule and the working registers are zero,
every slot and every absent vault is in its form; memory in its form, log entry 4) is kept by every step, from every
state that meets it. -/
def Obligations.EveryStepKeepsTheInvariant : Prop :=
  ∀ s t : State, s.Inv → step s = .next t → t.Inv

/-- 60_exceptions.md R114, 20_memory.md R38: nothing is halted; from every state, also one no run reaches, every step
ends in a next state. -/
def Obligations.EveryStepEndsInANextState : Prop := ∀ s : State, ∃ t, step s = .next t

/-- 00_scope.md R4: the parameters are fixed for the life of the instance (log entry 7); each step takes exactly the
first input of the port. -/
def Obligations.StepKeepsParametersAndTakesOneInput : Prop :=
  ∀ s t : State, step s = .next t → t.params = s.params ∧ t.port = s.port.tail

/-! ## Errors and responses -/

/-- 60_exceptions.md R112: a command that leaves an error has had no effect but the response with value 0 and
`LASTERR`. -/
def Obligations.FailedCommandChangesNothing : Prop :=
  ∀ (i : Instr) (s t : State),
    exec i s = .next t → t.lastErr ≠ .success →
      t = { s with lastErr := t.lastErr, response := some { err := t.lastErr, val := 0#32 } }

/-- 10_state.md R22, R24: every command word, legal or not, leaves a response whose code `LASTERR` also holds, and
whose value is 0 when the code is not success; `RDC 1` answers with the code the command before it left, and then
leaves its own; of the response nothing is kept that a later command could read. -/
def Obligations.EveryCommandAnswersAndWritesLastErr : Prop :=
  (∀ (s t : State) (w : Word) (rest : List HostInput),
    s.port = .command w :: rest → step s = .next t →
      ∃ v, t.response = some { err := t.lastErr, val := v } ∧ (t.lastErr ≠ .success → v = 0#32)) ∧
  (∀ (s : State) (rest : List HostInput), s.port = .command 0x04000001#32 :: rest →
    ∃ t v, step s = .next t ∧ Answers t .success v ∧ v.extractLsb' 0 4 = errNumber s.lastErr) ∧
  ∀ (i : Instr) (s : State) (r : Option Response), exec i { s with response := r } = exec i s

/-- 60_exceptions.md section 1, the table of which command can raise which error: a legal command ends in success or
in one of its listed errors. -/
def Obligations.CommandsRaiseOnlyTheirListedErrors : Prop :=
  ∀ (i : Instr) (s t : State),
    i.wellFormed s.params = true → s.slots.length = s.params.nsb → s.vaults.length = s.params.nvault →
    exec i s = .next t → t.lastErr = .success ∨ t.lastErr ∈ raisable i

/-- The model's own convention (log entry 8): a command whose slot or vault the instance does not have is answered
with `IllegalCommand` also when it is given to `exec` directly. -/
def Obligations.IllFormedCommandIsIllegal : Prop :=
  ∀ (i : Instr) (s : State),
    i.wellFormed s.params = false → s.slots.length = s.params.nsb → s.vaults.length = s.params.nvault →
    Fails i s .illegalCommand

/-! ## Host commands (41_host_commands.md)

Each statement about a command also says what the words of its opcode with an illegal field do: see
`OtherWordsAreIllegal`. -/

/-- R73: `NOP` changes nothing but `LASTERR` and the response. -/
def Obligations.NopOnlyClearsLastErr : Prop :=
  OtherWordsAreIllegal 0x00#8 (fun i => i = .nop) ∧
  encode .nop = 0x00000000#32 ∧
  ∀ s : State, exec .nop s =
    .next { s with lastErr := .success, response := some { err := .success, val := 0#32 } }

/-- R74: `LI` zero-extends its immediate into the register; nothing else changes. -/
def Obligations.LiLoadsZeroExtended : Prop :=
  OtherWordsAreIllegal 0x01#8 (fun i => ∃ rd imm, i = .li rd imm) ∧
  ∀ (rd : Reg) (imm : BitVec 16),
    encode (.li rd imm) = (0x01#8 ++ regField rd ++ 0#4 ++ imm : BitVec 32) ∧
    ∀ s : State, ∃ t, exec (.li rd imm) s = .next t ∧
      (t.reg rd).toNat = imm.toNat ∧
      Answers t .success 0#32 ∧ SameRegsBut s t rd ∧ SameXmem s t ∧ SameSlots s t ∧
      SameVaults s t ∧ SameRng s t ∧ SameEngineSide s t

/-- R75: `LIH` replaces bits 31:16 and keeps bits 15:0; nothing else changes. -/
def Obligations.LihLoadsTheHighHalf : Prop :=
  OtherWordsAreIllegal 0x02#8 (fun i => ∃ rd imm, i = .lih rd imm) ∧
  ∀ (rd : Reg) (imm : BitVec 16),
    encode (.lih rd imm) = (0x02#8 ++ regField rd ++ 0#4 ++ imm : BitVec 32) ∧
    ∀ s : State, ∃ t, exec (.lih rd imm) s = .next t ∧
      (t.reg rd).extractLsb' 16 16 = imm ∧
      (t.reg rd).extractLsb' 0 16 = (s.reg rd).extractLsb' 0 16 ∧
      Answers t .success 0#32 ∧ SameRegsBut s t rd ∧ SameXmem s t ∧ SameSlots s t ∧
      SameVaults s t ∧ SameRng s t ∧ SameEngineSide s t

/-- 30_encoding.md R56: the expansion of `LI32 rd, imm32`, `LI` then `LIH`, leaves the register holding `imm32`; the
expansion of `SBREL sb` is `SBREL sb, 0`. -/
def Obligations.LoadImmediate32Expansion : Prop :=
  (∀ sb : SlotIx, pseudoSbrel sb = [.sbrel sb 0x00#8]) ∧
  ∀ (rd : Reg) (imm : Word) (s : State),
    pseudoLi32 rd imm = [.li rd (imm.extractLsb' 0 16), .lih rd (imm.extractLsb' 16 16)] ∧
    ∃ i j t u, pseudoLi32 rd imm = [i, j] ∧ exec i s = .next t ∧ exec j t = .next u ∧
      u.reg rd = imm ∧ SameRegsBut s u rd

/-- R76: `GETR` answers with the register; nothing changes but `LASTERR` and the response. -/
def Obligations.GetrAnswersTheRegister : Prop :=
  OtherWordsAreIllegal 0x03#8 (fun i => ∃ rs, i = .getr rs) ∧
  ∀ rs : Reg,
    encode (.getr rs) = (0x03#8 ++ regField rs ++ 0#20 : BitVec 32) ∧
    ∀ s : State, exec (.getr rs) s =
      .next { s with lastErr := .success, response := some { err := .success, val := s.reg rs } }

/-- R77: `RDC` answers with the control register, `STATUS` as it was before this command wrote `LASTERR`; nothing
changes but `LASTERR` and the response. -/
def Obligations.RdcAnswersTheControlRegister : Prop :=
  OtherWordsAreIllegal 0x04#8 (fun i => ∃ c, i = .rdc c) ∧
  (∀ c : Csr, encode (.rdc c) = (0x04#8 ++ 0#8 ++ csrNumber c : BitVec 32)) ∧
  (csrNumber .id = 0 ∧ csrNumber .status = 1 ∧ csrNumber .sync0 = 2 ∧ csrNumber .sync1 = 3 ∧
    csrNumber .config = 4 ∧ csrNumber .xmemsz = 5) ∧
  ∀ (c : Csr) (s : State), ∃ v,
    exec (.rdc c) s =
      .next { s with lastErr := .success, response := some { err := .success, val := v } } ∧
    (c = .id → v = 0x47383901#32) ∧ (c = .status → v = s.status) ∧
    (c = .sync0 → v = s.sync0) ∧ (c = .sync1 → v = s.sync1) ∧
    (c = .config → v = configWord s.params) ∧ (c = .xmemsz → v = BitVec.ofNat 32 s.params.xmemSize)

/-- 10_state.md R17: each bit of `STATUS`, all zero after reset; and no command but the one that reads `STATUS` does
anything that depends on `LASTERR`. -/
def Obligations.StatusBitsAreTheFlags : Prop :=
  State.reset.status = 0#32 ∧
  (∀ (i : Instr) (s : State) (e : ErrCode), i ≠ .rdc .status →
    exec i { s with lastErr := e } = exec i s) ∧
  ∀ s : State,
    s.status.extractLsb' 0 4 = errNumber s.lastErr ∧
    s.status.extractLsb' 4 4 = 0#4 ∧
    (∀ b : Nat, b < 8 → s.status.getLsbD (8 + b) = (s.slots[b]?.map Slot.valid).getD false) ∧
    (∀ v : Nat, v < 4 → s.status.getLsbD (16 + v) = (s.vaults[v]?.map Vault.valid).getD false) ∧
    (∀ v : Nat, v < 4 → s.status.getLsbD (20 + v) = (s.vaults[v]?.map Vault.guard).getD false) ∧
    s.status.extractLsb' 24 8 = 0#8

/-- 60_exceptions.md R105: the numbers of the error codes; 6 to 15 are never produced. -/
def Obligations.ErrorCodesAreNumbered : Prop :=
  errNumber .success = 0 ∧ errNumber .configurationError = 1 ∧ errNumber .lengthError = 2 ∧
    errNumber .stateError = 3 ∧ errNumber .addressError = 4 ∧ errNumber .illegalCommand = 5 ∧
    ∀ e : ErrCode, (errNumber e).toNat ≤ 5

/-- 10_state.md R19: the fields of `CONFIG` for every legal instance, and its value with the default parameters. -/
def Obligations.ConfigHoldsTheParameters : Prop :=
  configWord Params.default = 0x00204024#32 ∧
  ∀ p : Params, p.Legal →
    ((configWord p).extractLsb' 0 4).toNat = p.nsb ∧
    ((configWord p).extractLsb' 4 4).toNat = p.nvault ∧
    ((configWord p).extractLsb' 8 8).toNat = p.sbCap ∧
    ((configWord p).extractLsb' 16 8).toNat = 32 ∧
    (configWord p).extractLsb' 24 8 = 0#8

/-- R78: `STB`. -/
def Obligations.StbStoresAByteAndSteps : Prop :=
  OtherWordsAreIllegal 0x08#8 (fun i => ∃ ra imm, i = .stb ra imm) ∧
  ∀ (ra : Reg) (imm : Byte),
    encode (.stb ra imm) = (0x08#8 ++ regField ra ++ 0#12 ++ imm : BitVec 32) ∧
    ∀ s : State,
      (¬ s.InRange (s.reg ra) 1 → Fails (.stb ra imm) s .addressError) ∧
      (s.InRange (s.reg ra) 1 → ∃ t, exec (.stb ra imm) s = .next t ∧
        t.xmemByte (s.reg ra).toNat = imm ∧ t.reg ra = s.reg ra + 1#32 ∧
        Answers t .success 0#32 ∧ SameRegsBut s t ra ∧ SameXmemOutside s t (s.reg ra).toNat 1 ∧
        SameSlots s t ∧ SameVaults s t ∧ SameRng s t ∧ SameEngineSide s t)

/-- R79: `LDB`. -/
def Obligations.LdbAnswersAByteAndSteps : Prop :=
  OtherWordsAreIllegal 0x09#8 (fun i => ∃ ra, i = .ldb ra) ∧
  ∀ ra : Reg,
    encode (.ldb ra) = (0x09#8 ++ regField ra ++ 0#20 : BitVec 32) ∧
    ∀ s : State,
      (¬ s.InRange (s.reg ra) 1 → Fails (.ldb ra) s .addressError) ∧
      (s.InRange (s.reg ra) 1 → ∃ t, exec (.ldb ra) s = .next t ∧
        Answers t .success ((s.xmemByte (s.reg ra).toNat).setWidth 32) ∧
        t.reg ra = s.reg ra + 1#32 ∧ SameRegsBut s t ra ∧ SameXmem s t ∧
        SameSlots s t ∧ SameVaults s t ∧ SameRng s t ∧ SameEngineSide s t)

/-- R80: `STW`, little-endian. -/
def Obligations.StwStoresAWordLittleEndian : Prop :=
  OtherWordsAreIllegal 0x0A#8 (fun i => ∃ ra rb, i = .stw ra rb) ∧
  ∀ ra rb : Reg,
    encode (.stw ra rb) = (0x0A#8 ++ regField ra ++ regField rb ++ 0#16 : BitVec 32) ∧
    ∀ s : State,
      (¬ s.InRange (s.reg ra) 4 → Fails (.stw ra rb) s .addressError) ∧
      (s.InRange (s.reg ra) 4 → ∃ t, exec (.stw ra rb) s = .next t ∧
        (∀ k : Nat, k < 4 →
          t.xmemByte ((s.reg ra).toNat + k) = (s.reg rb).extractLsb' (8 * k) 8) ∧
        Answers t .success 0#32 ∧ SameRegs s t ∧ SameXmemOutside s t (s.reg ra).toNat 4 ∧
        SameSlots s t ∧ SameVaults s t ∧ SameRng s t ∧ SameEngineSide s t)

/-- R81: `LDW`, little-endian; the address is read before the register is written. -/
def Obligations.LdwLoadsAWordLittleEndian : Prop :=
  OtherWordsAreIllegal 0x0B#8 (fun i => ∃ rd ra, i = .ldw rd ra) ∧
  ∀ rd ra : Reg,
    encode (.ldw rd ra) = (0x0B#8 ++ regField rd ++ regField ra ++ 0#16 : BitVec 32) ∧
    ∀ s : State,
      (¬ s.InRange (s.reg ra) 4 → Fails (.ldw rd ra) s .addressError) ∧
      (s.InRange (s.reg ra) 4 → ∃ t v, exec (.ldw rd ra) s = .next t ∧
        (∀ k : Nat, k < 4 → v.extractLsb' (8 * k) 8 = s.xmemByte ((s.reg ra).toNat + k)) ∧
        t.reg rd = v ∧ Answers t .success v ∧ SameRegsBut s t rd ∧ SameXmem s t ∧
        SameSlots s t ∧ SameVaults s t ∧ SameRng s t ∧ SameEngineSide s t)

/-! ## Cipher commands (42_cipher_commands.md) -/

/-- R82: `CFGSBOX`, with its errors in their order. -/
def Obligations.CfgsboxReplacesTheWholeTable : Prop :=
  OtherWordsAreIllegal 0x10#8 (fun i => ∃ ra rn, i = .cfgsbox ra rn) ∧
  ∀ ra rn : Reg,
    encode (.cfgsbox ra rn) = (0x10#8 ++ regField ra ++ regField rn ++ 0#16 : BitVec 32) ∧
    ∀ s : State,
      ((s.reg rn).toNat < 128 → Fails (.cfgsbox ra rn) s .configurationError) ∧
      (128 ≤ (s.reg rn).toNat → ¬ s.InRange (s.reg ra) 128 → Fails (.cfgsbox ra rn) s .addressError) ∧
      (128 ≤ (s.reg rn).toNat → s.InRange (s.reg ra) 128 →
        (∃ k, k < 128 ∧ 15 < (s.xmemByte ((s.reg ra).toNat + k)).toNat) →
          Fails (.cfgsbox ra rn) s .configurationError) ∧
      (128 ≤ (s.reg rn).toNat → s.InRange (s.reg ra) 128 →
        (∀ k, k < 128 → (s.xmemByte ((s.reg ra).toNat + k)).toNat ≤ 15) →
          ∃ t, exec (.cfgsbox ra rn) s = .next t ∧
            (∀ (g : Fin 8) (n : Nibble), (sboxEntry t.sbox g n).toNat =
              (s.xmemByte ((s.reg ra).toNat + (16 * g.val + n.toNat))).toNat) ∧
            t.sync0 = s.sync0 ∧ t.sync1 = s.sync1 ∧ SameEngine s t ∧ SameHost s t ∧
            Answers t .success 0#32 ∧ SameRegs s t ∧ SameXmem s t ∧ SameSlots s t ∧
            SameVaults s t ∧ SameRng s t)

/-- R83: `CFGSYNC` sets both words at once. -/
def Obligations.CfgsyncSetsBothWords : Prop :=
  OtherWordsAreIllegal 0x11#8 (fun i => ∃ ra rb, i = .cfgsync ra rb) ∧
  ∀ ra rb : Reg,
    encode (.cfgsync ra rb) = (0x11#8 ++ regField ra ++ regField rb ++ 0#16 : BitVec 32) ∧
    ∀ s : State, ∃ t, exec (.cfgsync ra rb) s = .next t ∧
      t.sync0 = s.reg ra ∧ t.sync1 = s.reg rb ∧ t.sbox = s.sbox ∧ SameEngine s t ∧ SameHost s t ∧
      Answers t .success 0#32 ∧ SameRegs s t ∧ SameXmem s t ∧ SameSlots s t ∧ SameVaults s t ∧
      SameRng s t

/-- R84: `XFORM`, with its errors in their order: the key source is checked before any address is looked at, also for
length 0; then ranges that leave `XMEM` or overlap without being the same are refused; otherwise the transform of the
source is written to the destination, the engine is left wiped, and all else is left alone. -/
def Obligations.XformTransformsTheSource : Prop :=
  OtherWordsAreIllegal 0x12#8 (fun i => ∃ rd rs rn ks, i = .xform rd rs rn ks) ∧
  ∀ (rd rs rn : Reg) (ks : KeySrc),
    encode (.xform rd rs rn ks) =
      (0x12#8 ++ regField rd ++ regField rs ++ regField rn ++ keySrcField ks ++ 0#8 : BitVec 32) ∧
    ∀ s : State,
      (∀ b sl, ks = .slot b → s.slot? b = some sl → sl.valid = false →
        Fails (.xform rd rs rn ks) s .stateError) ∧
      (∀ b sl, ks = .slot b → s.slot? b = some sl → sl.valid = true → sl.len ≠ 32 →
        Fails (.xform rd rs rn ks) s .lengthError) ∧
      (∀ v x, ks = .vault v → s.vault? v = some x → (x.valid = false ∨ x.guard = false) →
        Fails (.xform rd rs rn ks) s .stateError) ∧
      ∀ key : Key,
        ((∃ b sl, ks = .slot b ∧ s.slot? b = some sl ∧ sl.valid = true ∧ sl.len = 32 ∧
            ∀ i : Fin 32, key[i.val] = sl.byte i.val) ∨
          (∃ v x, ks = .vault v ∧ s.vault? v = some x ∧ x.valid = true ∧ x.guard = true ∧
            key = x.data)) →
        ((¬ s.InRange (s.reg rs) (s.reg rn).toNat ∨ ¬ s.InRange (s.reg rd) (s.reg rn).toNat) →
          Fails (.xform rd rs rn ks) s .addressError) ∧
        (s.InRange (s.reg rs) (s.reg rn).toNat → s.InRange (s.reg rd) (s.reg rn).toNat →
          Overlap (s.reg rd) (s.reg rs) (s.reg rn).toNat →
          Fails (.xform rd rs rn ks) s .addressError) ∧
        (s.InRange (s.reg rs) (s.reg rn).toNat → s.InRange (s.reg rd) (s.reg rn).toNat →
          ¬ Overlap (s.reg rd) (s.reg rs) (s.reg rn).toNat →
          ∃ t, exec (.xform rd rs rn ks) s = .next t ∧
            t.xmemBytes (s.reg rd).toNat (s.reg rn).toNat =
              transform s.sbox (s.sync0, s.sync1) key
                (s.xmemBytes (s.reg rs).toNat (s.reg rn).toNat) ∧
            SameXmemOutside s t (s.reg rd).toNat (s.reg rn).toNat ∧
            t.engine = Engine.zero ∧ Answers t .success 0#32 ∧ SameRegs s t ∧
            SameCipherConfig s t ∧ SameSlots s t ∧ SameVaults s t ∧ SameRng s t ∧ SameHost s t)

/-- 42_cipher_commands.md R84, 40_cipher_datapath.md section 6: a second `XFORM` in place on the result of a first
gives the first's source bytes back. -/
def Obligations.XformInPlaceUndoesXform : Prop :=
  ∀ (rd rs rn : Reg) (ks : KeySrc) (s t : State),
    exec (.xform rd rs rn ks) s = .next t → t.lastErr = .success →
      ∃ u, exec (.xform rd rd rn ks) t = .next u ∧ u.lastErr = .success ∧
        u.xmemBytes (s.reg rd).toNat (s.reg rn).toNat =
          s.xmemBytes (s.reg rs).toNat (s.reg rn).toNat

/-! ## Cipher datapath (40_cipher_datapath.md) -/

/-- R57: nibble `i` of `Subst(w)` is entry (nibble `i` of `w`) of group `i`. -/
def Obligations.SubstIsNibblewise : Prop :=
  ∀ (t : SBox) (w : Word) (i : Fin 8),
    (subst t w).extractLsb' (4 * i.val) 4 = sboxEntry t i (w.extractLsb' (4 * i.val) 4)

/-- R58: bit `j` of `Subst(w)` is bit `(j + 11) mod 32` of `F(w)`. -/
def Obligations.RoundFunctionRotatesBy11 : Prop :=
  ∀ (t : SBox) (w : Word) (j : Nat), j < 32 →
    (roundF t w).getLsbD ((j + 11) % 32) = (subst t w).getLsbD j

/-- R59, first sentence: with a permutation table the round function is a bijection. -/
def Obligations.RoundFunctionIsABijection : Prop :=
  ∀ t : SBox, (∀ g : Fin 8, Function.Injective (sboxEntry t g)) → Function.Bijective (roundF t)

/-- Section 4 (derived there): the block transform is a bijection on pairs whatever the table. -/
def Obligations.BlockTransformIsABijection : Prop :=
  ∀ (t : SBox) (k : Vector Word 8), Function.Bijective (cipherBlock t k)

/-- R60, R61: the key words and the round-key sequence. -/
def Obligations.KeyScheduleOrder : Prop :=
  (∀ (key : Key) (i : Fin 8) (j : Fin 4),
    ((keyWords key)[i.val]).extractLsb' (8 * j.val) 8 =
      key[4 * i.val + j.val]'(by simp only [Config.keySize]; omega)) ∧
  (∀ r : Nat, r ≤ 23 → kidx r = r % 8) ∧ (∀ r : Nat, 24 ≤ r → r ≤ 31 → kidx r = 31 - r)

/-- R62, R63: rounds 0 to 30 each take the pair (`A`, `B`) to (`F(A + k) xor B`, `A`) with round key `K[KIDX(r)]`;
round 31, with `K[0]`, changes `B` only and does not swap. -/
def Obligations.BlockIsThirtyTwoRounds : Prop :=
  ∀ (t : SBox) (k : Vector Word 8) (p : Word × Word), ∃ q : Nat → Word × Word,
    q 0 = p ∧
    (∀ r : Nat, r ≤ 30 →
      q (r + 1) = (roundF t ((q r).1 + k[kidx r]'(kidx_lt r)) ^^^ (q r).2, (q r).1)) ∧
    cipherBlock t k p = ((q 31).1, (q 31).2 ^^^ roundF t ((q 31).1 + k[0]))

/-- R64, R65: `CAdd` is the sum where it fits in 32 bits, and otherwise the sum with its carry added back in; the
counter's low register advances by `0x01010104` so, its high register by `0x01010101` with wraparound. -/
def Obligations.CarryAwareAddition : Prop :=
  (∀ x c : Word, (cAdd x c).toNat =
    if x.toNat + c.toNat < 2 ^ 32 then x.toNat + c.toNat else x.toNat + c.toNat - 2 ^ 32 + 1) ∧
  ∀ a b : Word, (advance (a, b)).1 = cAdd a 0x01010104#32 ∧
    (advance (a, b)).2.toNat = (b.toNat + 0x01010101) % 2 ^ 32

/-- R66 to R68: byte `j` of the output is byte `j` of the source combined with keystream byte `j mod 8` of group
`j div 8`, whose counter is the primed pair advanced once per group and never replaced by the block transform's
output; the output is as long as the source. Keystream bytes 0 to 3 are `GA` from its least significant byte up, bytes
4 to 7 are `GB` likewise. -/
def Obligations.TransformIsCounterKeystream : Prop :=
  (∀ (ga gb : Word) (j : Nat), j < 4 →
    keystreamByte (ga, gb) j = ga.extractLsb' (8 * j) 8 ∧
    keystreamByte (ga, gb) (4 + j) = gb.extractLsb' (8 * j) 8) ∧
  ∀ (t : SBox) (sync : Word × Word) (key : Key) (src : List Byte),
    (transform t sync key src).length = src.length ∧
    ∀ (j : Nat) (h : j < src.length),
      (transform t sync key src)[j]? = some (src[j] ^^^
        keystreamByte
          (cipherBlock t (keyWords key)
            (advance^[j / 8 + 1] (cipherBlock t (keyWords key) sync)))
          (j % 8))

/-- Section 6 (R70 (a) there): transforming twice with the same table, sync vector and key gives the input back, for
every length and every table. -/
def Obligations.TransformIsSelfInverse : Prop :=
  ∀ (t : SBox) (sync : Word × Word) (key : Key) (src : List Byte),
    transform t sync key (transform t sync key src) = src

/-- Section 6 (derived there): the transform of a prefix is the prefix of the transform. -/
def Obligations.TransformOfPrefixIsPrefix : Prop :=
  ∀ (t : SBox) (sync : Word × Word) (key : Key) (src : List Byte) (m : Nat),
    transform t sync key (src.take m) = (transform t sync key src).take m

/-! ## Secure-buffer commands (43_secure_buffer.md) -/

/-- R87: `SBLD`, with its errors in their order; the source bytes are zeroed in `XMEM`. -/
def Obligations.SbldConsumesItsSource : Prop :=
  OtherWordsAreIllegal 0x20#8 (fun i => ∃ sb ra rn, i = .sbld sb ra rn) ∧
  ∀ (sb : SlotIx) (ra rn : Reg),
    encode (.sbld sb ra rn) =
      (0x20#8 ++ slotField sb ++ regField ra ++ regField rn ++ 0#12 : BitVec 32) ∧
    ∀ (s : State) (sl : Slot), s.slot? sb = some sl →
      (sl.valid = true → Fails (.sbld sb ra rn) s .stateError) ∧
      (sl.valid = false → (s.reg rn).toNat > s.params.sbCap → Fails (.sbld sb ra rn) s .lengthError) ∧
      (sl.valid = false → (s.reg rn).toNat ≤ s.params.sbCap →
        ¬ s.InRange (s.reg ra) (s.reg rn).toNat → Fails (.sbld sb ra rn) s .addressError) ∧
      (sl.valid = false → (s.reg rn).toNat ≤ s.params.sbCap →
        s.InRange (s.reg ra) (s.reg rn).toNat →
        ∃ t sl', exec (.sbld sb ra rn) s = .next t ∧ t.slot? sb = some sl' ∧
          sl'.valid = true ∧ sl'.len = (s.reg rn).toNat ∧ sl'.bytes.length = s.params.sbCap ∧
          (∀ i, i < (s.reg rn).toNat → sl'.byte i = s.xmemByte ((s.reg ra).toNat + i)) ∧
          (∀ i, (s.reg rn).toNat ≤ i → sl'.byte i = 0#8) ∧
          (∀ i, i < (s.reg rn).toNat → t.xmemByte ((s.reg ra).toNat + i) = 0#8) ∧
          SameXmemOutside s t (s.reg ra).toNat (s.reg rn).toNat ∧
          Answers t .success 0#32 ∧ SameRegs s t ∧ SameSlotsBut s t sb ∧ SameVaults s t ∧
          SameRng s t ∧ SameEngineSide s t)

/-- R88, R86: `SBREL` erases the whole capacity with the fill, whatever the slot held. -/
def Obligations.SbrelErasesTheSlot : Prop :=
  OtherWordsAreIllegal 0x21#8 (fun i => ∃ sb imm, i = .sbrel sb imm) ∧
  ∀ (sb : SlotIx) (imm : Byte),
    encode (.sbrel sb imm) = (0x21#8 ++ slotField sb ++ 0#12 ++ imm : BitVec 32) ∧
    ∀ (s : State) (sl : Slot), s.slot? sb = some sl →
      ∃ t, exec (.sbrel sb imm) s = .next t ∧
        t.slot? sb =
          some { valid := false, len := 0, bytes := List.replicate s.params.sbCap imm } ∧
        Answers t .success 0#32 ∧ SameRegs s t ∧ SameXmem s t ∧ SameSlotsBut s t sb ∧
        SameVaults s t ∧ SameRng s t ∧ SameEngineSide s t

/-- R89: `SBRAND` fills the `LEN` bytes of a live slot in order from one draw, whatever the source answers (log entry
6), and leaves the bytes beyond. -/
def Obligations.SbrandFillsFromTheRandomSource : Prop :=
  OtherWordsAreIllegal 0x22#8 (fun i => ∃ sb, i = .sbrand sb) ∧
  ∀ sb : SlotIx,
    encode (.sbrand sb) = (0x22#8 ++ slotField sb ++ 0#20 : BitVec 32) ∧
    ∀ (s : State) (sl : Slot), s.slot? sb = some sl →
      (sl.valid = false → Fails (.sbrand sb) s .stateError) ∧
      (sl.valid = true → ∃ t sl', exec (.sbrand sb) s = .next t ∧ t.slot? sb = some sl' ∧
        sl'.valid = true ∧ sl'.len = sl.len ∧
        (∀ i, i < sl.len → sl'.byte i = s.rngByte i) ∧
        (∀ i, sl.len ≤ i → sl'.byte i = sl.byte i) ∧ Drew s t sl.len ∧
        Answers t .success 0#32 ∧ SameRegs s t ∧ SameXmem s t ∧ SameSlotsBut s t sb ∧
        SameVaults s t ∧ SameEngineSide s t)

/-- R90: `SBST` copies exactly the `LEN` bytes and answers `LEN`; the slot stays. -/
def Obligations.SbstCopiesTheContentOut : Prop :=
  OtherWordsAreIllegal 0x23#8 (fun i => ∃ sb ra, i = .sbst sb ra) ∧
  ∀ (sb : SlotIx) (ra : Reg),
    encode (.sbst sb ra) = (0x23#8 ++ slotField sb ++ regField ra ++ 0#16 : BitVec 32) ∧
    ∀ (s : State) (sl : Slot), s.slot? sb = some sl →
      (sl.valid = false → Fails (.sbst sb ra) s .stateError) ∧
      (sl.valid = true → ¬ s.InRange (s.reg ra) sl.len → Fails (.sbst sb ra) s .addressError) ∧
      (sl.valid = true → s.InRange (s.reg ra) sl.len →
        ∃ t, exec (.sbst sb ra) s = .next t ∧
          (∀ i, i < sl.len → t.xmemByte ((s.reg ra).toNat + i) = sl.byte i) ∧
          SameXmemOutside s t (s.reg ra).toNat sl.len ∧
          Answers t .success (BitVec.ofNat 32 sl.len) ∧ SameRegs s t ∧ SameSlots s t ∧
          SameVaults s t ∧ SameRng s t ∧ SameEngineSide s t)

/-- R91: `SBLEN` answers `LEN` of a live slot; nothing changes but `LASTERR` and the response. -/
def Obligations.SblenAnswersTheLength : Prop :=
  OtherWordsAreIllegal 0x24#8 (fun i => ∃ sb, i = .sblen sb) ∧
  ∀ sb : SlotIx,
    encode (.sblen sb) = (0x24#8 ++ slotField sb ++ 0#20 : BitVec 32) ∧
    ∀ (s : State) (sl : Slot), s.slot? sb = some sl →
      (sl.valid = false → Fails (.sblen sb) s .stateError) ∧
      (sl.valid = true → exec (.sblen sb) s = .next { s with
        lastErr := .success
        response := some { err := .success, val := BitVec.ofNat 32 sl.len } })

/-! ## Vault and guard commands (44_vault_guard.md) -/

/-- R96: `VNEW`, with its errors; the plaintext key is the content with zeros after it, the vault is locked under a
fresh pad, and the slot is wiped with zeros. -/
def Obligations.VnewBuildsALockedVault : Prop :=
  OtherWordsAreIllegal 0x30#8 (fun i => ∃ v sb, i = .vnew v sb) ∧
  ∀ (v : VaultIx) (sb : SlotIx),
    encode (.vnew v sb) = (0x30#8 ++ vaultField v ++ slotField sb ++ 0#16 : BitVec 32) ∧
    ∀ (s : State) (x : Vault) (sl : Slot), s.vault? v = some x → s.slot? sb = some sl →
      ((x.valid = true ∨ sl.valid = false) → Fails (.vnew v sb) s .stateError) ∧
      (x.valid = false → sl.valid = true → sl.len > 32 → Fails (.vnew v sb) s .lengthError) ∧
      (x.valid = false → sl.valid = true → sl.len ≤ 32 →
        ∃ t x', exec (.vnew v sb) s = .next t ∧ t.vault? v = some x' ∧
          x'.valid = true ∧ x'.guard = false ∧
          (∀ i : Fin 32, x'.mask[i.val] = s.rngByte i.val ∧
            x'.data[i.val] =
              (if i.val < sl.len then sl.byte i.val else 0#8) ^^^ s.rngByte i.val) ∧
          Drew s t 32 ∧
          t.slot? sb =
            some { valid := false, len := 0, bytes := List.replicate s.params.sbCap 0#8 } ∧
          Answers t .success 0#32 ∧ SameRegs s t ∧ SameXmem s t ∧ SameSlotsBut s t sb ∧
          SameVaultsBut s t v ∧ SameEngineSide s t)

/-- R97, R94: `GACQ` unlocks; `MASK` stays; nothing is drawn. -/
def Obligations.GacqUnlocksTheVault : Prop :=
  OtherWordsAreIllegal 0x31#8 (fun i => ∃ v, i = .gacq v) ∧
  ∀ v : VaultIx,
    encode (.gacq v) = (0x31#8 ++ vaultField v ++ 0#20 : BitVec 32) ∧
    ∀ (s : State) (x : Vault), s.vault? v = some x →
      ((x.valid = false ∨ x.guard = true) → Fails (.gacq v) s .stateError) ∧
      (x.valid = true → x.guard = false →
        ∃ t x', exec (.gacq v) s = .next t ∧ t.vault? v = some x' ∧
          x'.valid = true ∧ x'.guard = true ∧ x'.mask = x.mask ∧
          (∀ i : Fin 32, x'.data[i.val] = x.data[i.val] ^^^ x.mask[i.val]) ∧
          Answers t .success 0#32 ∧ SameRegs s t ∧ SameXmem s t ∧ SameSlots s t ∧
          SameVaultsBut s t v ∧ SameRng s t ∧ SameEngineSide s t)

/-- R98, R93: `GREL` locks under a fresh pad, which replaces the old mask. -/
def Obligations.GrelRelocksUnderAFreshPad : Prop :=
  OtherWordsAreIllegal 0x32#8 (fun i => ∃ v, i = .grel v) ∧
  ∀ v : VaultIx,
    encode (.grel v) = (0x32#8 ++ vaultField v ++ 0#20 : BitVec 32) ∧
    ∀ (s : State) (x : Vault), s.vault? v = some x →
      ((x.valid = false ∨ x.guard = false) → Fails (.grel v) s .stateError) ∧
      (x.valid = true → x.guard = true →
        ∃ t x', exec (.grel v) s = .next t ∧ t.vault? v = some x' ∧
          x'.valid = true ∧ x'.guard = false ∧
          (∀ i : Fin 32, x'.mask[i.val] = s.rngByte i.val ∧
            x'.data[i.val] = x.data[i.val] ^^^ s.rngByte i.val) ∧
          Drew s t 32 ∧ Answers t .success 0#32 ∧ SameRegs s t ∧ SameXmem s t ∧ SameSlots s t ∧
          SameVaultsBut s t v ∧ SameEngineSide s t)

/-- R99: `VRD` copies the plaintext key out while a guard is active; the vault stays. -/
def Obligations.VrdCopiesTheKeyView : Prop :=
  OtherWordsAreIllegal 0x33#8 (fun i => ∃ v ra, i = .vrd v ra) ∧
  ∀ (v : VaultIx) (ra : Reg),
    encode (.vrd v ra) = (0x33#8 ++ vaultField v ++ regField ra ++ 0#16 : BitVec 32) ∧
    ∀ (s : State) (x : Vault), s.vault? v = some x →
      ((x.valid = false ∨ x.guard = false) → Fails (.vrd v ra) s .stateError) ∧
      (x.valid = true → x.guard = true → ¬ s.InRange (s.reg ra) 32 →
        Fails (.vrd v ra) s .addressError) ∧
      (x.valid = true → x.guard = true → s.InRange (s.reg ra) 32 →
        ∃ t, exec (.vrd v ra) s = .next t ∧
          (∀ i : Fin 32, t.xmemByte ((s.reg ra).toNat + i.val) = x.data[i.val]) ∧
          SameXmemOutside s t (s.reg ra).toNat 32 ∧ Answers t .success 0#32 ∧ SameRegs s t ∧
          SameSlots s t ∧ SameVaults s t ∧ SameRng s t ∧ SameEngineSide s t)

/-- R100: `VDEL` erases both stores, also of an absent vault, and refuses while a guard is active. -/
def Obligations.VdelErasesTheVault : Prop :=
  OtherWordsAreIllegal 0x34#8 (fun i => ∃ v, i = .vdel v) ∧
  ∀ v : VaultIx,
    encode (.vdel v) = (0x34#8 ++ vaultField v ++ 0#20 : BitVec 32) ∧
    ∀ (s : State) (x : Vault), s.vault? v = some x →
      (x.guard = true → Fails (.vdel v) s .stateError) ∧
      (x.guard = false → ∃ t x', exec (.vdel v) s = .next t ∧ t.vault? v = some x' ∧
        x'.valid = false ∧ x'.guard = false ∧
        (∀ i : Fin 32, x'.data[i.val] = 0#8 ∧ x'.mask[i.val] = 0#8) ∧
        Answers t .success 0#32 ∧ SameRegs s t ∧ SameXmem s t ∧ SameSlots s t ∧
        SameVaultsBut s t v ∧ SameRng s t ∧ SameEngineSide s t)

/-! ## Rules about the whole machine -/

/-- 10_state.md section 7 (the vault invariant, derived there): the plaintext key of a vault survives every step that
leaves the vault in existence, through any locking and unlocking. -/
def Obligations.VaultKeySurvivesEveryStep : Prop :=
  ∀ (s t : State) (v : Nat) (x y : Vault),
    step s = .next t → s.vaults[v]? = some x → t.vaults[v]? = some y →
    x.valid = true → y.valid = true → y.plainKey = x.plainKey

/-- 44_vault_guard.md R103: a command that names a vault neither reads nor writes any other vault: with another
content of vault `w` it does the same and leaves that content as it was. -/
def Obligations.VaultsAreIndependent : Prop :=
  ∀ (i : Instr) (v w : VaultIx) (y : Vault) (s t : State),
    namedVault i = some v → w ≠ v → exec i s = .next t →
      exec i (s.setVault w y) = .next (t.setVault w y)

/-- 44_vault_guard.md R102: only `VNEW`, `GACQ`, `GREL`, `VDEL` change a vault, and only the one they name; the guard
flag of an existing vault goes from 0 to 1 only by `GACQ` and from 1 to 0 only by `GREL`; a vault comes to be only by
`VNEW`, locked, and ends only by `VDEL`, while locked. -/
def Obligations.GuardAlternatesOnlyByItsCommands : Prop :=
  ∀ (i : Instr) (s t : State), exec i s = .next t →
    (∀ j : Nat, (∀ v : VaultIx, writtenVault i = some v → j ≠ v.val) → t.vaults[j]? = s.vaults[j]?) ∧
    (∀ (j : Nat) (x y : Vault), s.vaults[j]? = some x → t.vaults[j]? = some y →
      (x.valid = true → x.guard = false → y.guard = true → ∃ v : VaultIx, i = .gacq v ∧ v.val = j) ∧
      (x.valid = true → x.guard = true → y.guard = false → ∃ v : VaultIx, i = .grel v ∧ v.val = j) ∧
      (x.valid = false → y.valid = true →
        y.guard = false ∧ ∃ (v : VaultIx) (sb : SlotIx), i = .vnew v sb ∧ v.val = j) ∧
      (x.valid = true → y.valid = false → x.guard = false ∧ ∃ v : VaultIx, i = .vdel v ∧ v.val = j))

/-- 10_state.md R6, R8, R9, R13, section 4; 20_memory.md R29, R35: each piece of state is written only by the commands
the spec lists for it: a register only by `LI`, `LIH`, `LDW`, `STB`, `LDB`; the sync vector by `CFGSYNC`; the table by
`CFGSBOX`; the engine by `XFORM`; `XMEM` only in the ranges of R35; a slot by `SBLD`, `SBREL`, `SBRAND`, `VNEW`. -/
def Obligations.StateIsWrittenOnlyByItsCommands : Prop :=
  ∀ (i : Instr) (s t : State), exec i s = .next t →
    (∀ r : Reg, writtenReg i ≠ some r → t.reg r = s.reg r) ∧
    ((∀ ra rb, i ≠ .cfgsync ra rb) → t.sync0 = s.sync0 ∧ t.sync1 = s.sync1) ∧
    ((∀ ra rn, i ≠ .cfgsbox ra rn) → t.sbox = s.sbox) ∧
    ((∀ rd rs rn ks, i ≠ .xform rd rs rn ks) → t.engine = s.engine) ∧
    SameXmemOutside s t (writtenXmem i s).1 (writtenXmem i s).2 ∧
    (∀ j : Nat, (∀ b : SlotIx, writtenSlot i = some b → j ≠ b.val) → t.slots[j]? = s.slots[j]?)

/-- 10_state.md R23: only `SBRAND`, `VNEW`, `GREL` draw from the random source, and none that fails. -/
def Obligations.OnlyThreeCommandsDraw : Prop :=
  ∀ (i : Instr) (s t : State), exec i s = .next t →
    (mayDraw i = false ∨ t.lastErr ≠ .success) → SameRng s t

/-- 60_exceptions.md R117, 10_state.md R15: no command lets out a mask, a store of a vault with no active guard, a byte
of a free slot or beyond `LEN`, or a register of the engine: two states that differ only there look the same to the
host after any command. -/
def Obligations.SecretsAreNotObservable : Prop :=
  ∀ (i : Instr) (s s' t t' : State),
    DifferOnlyInSecrets s s' → exec i s = .next t → exec i s' = .next t' → LooksSame t t'
end

