-- ==== Sys2Proof/Laws/State.lean ====
section
/-! SUPPORT. What each update of the state does to each field: one lemma per field per update, true by unfolding the
update once, so that no later proof unfolds a record update. -/

namespace Sys2Proof.Machine

variable (s : State)

/-! ### complete -/

@[simp] theorem State.complete_params (e : ErrCode) (v : Word) : (s.complete e v).params = s.params := rfl
@[simp] theorem State.complete_regs (e : ErrCode) (v : Word) : (s.complete e v).regs = s.regs := rfl
@[simp] theorem State.complete_sync0 (e : ErrCode) (v : Word) : (s.complete e v).sync0 = s.sync0 := rfl
@[simp] theorem State.complete_sync1 (e : ErrCode) (v : Word) : (s.complete e v).sync1 = s.sync1 := rfl
@[simp] theorem State.complete_sbox (e : ErrCode) (v : Word) : (s.complete e v).sbox = s.sbox := rfl
@[simp] theorem State.complete_engine (e : ErrCode) (v : Word) : (s.complete e v).engine = s.engine := rfl
@[simp] theorem State.complete_xmem (e : ErrCode) (v : Word) : (s.complete e v).xmem = s.xmem := rfl
@[simp] theorem State.complete_slots (e : ErrCode) (v : Word) : (s.complete e v).slots = s.slots := rfl
@[simp] theorem State.complete_vaults (e : ErrCode) (v : Word) : (s.complete e v).vaults = s.vaults := rfl
@[simp] theorem State.complete_lastErr (e : ErrCode) (v : Word) : (s.complete e v).lastErr = e := rfl
@[simp] theorem State.complete_response (e : ErrCode) (v : Word) :
    (s.complete e v).response =
      some { err := e, val := v } := rfl
@[simp] theorem State.complete_port (e : ErrCode) (v : Word) : (s.complete e v).port = s.port := rfl
@[simp] theorem State.complete_rngIn (e : ErrCode) (v : Word) : (s.complete e v).rngIn = s.rngIn := rfl
@[simp] theorem State.complete_draws (e : ErrCode) (v : Word) : (s.complete e v).draws = s.draws := rfl
@[simp] theorem State.complete_resets (e : ErrCode) (v : Word) : (s.complete e v).resets = s.resets := rfl

/-! ### setReg -/

@[simp] theorem State.setReg_params (r : Reg) (v : Word) : (s.setReg r v).params = s.params := rfl
@[simp] theorem State.setReg_regs (r : Reg) (v : Word) : (s.setReg r v).regs = s.regs.set r.val v := rfl
@[simp] theorem State.setReg_sync0 (r : Reg) (v : Word) : (s.setReg r v).sync0 = s.sync0 := rfl
@[simp] theorem State.setReg_sync1 (r : Reg) (v : Word) : (s.setReg r v).sync1 = s.sync1 := rfl
@[simp] theorem State.setReg_sbox (r : Reg) (v : Word) : (s.setReg r v).sbox = s.sbox := rfl
@[simp] theorem State.setReg_engine (r : Reg) (v : Word) : (s.setReg r v).engine = s.engine := rfl
@[simp] theorem State.setReg_xmem (r : Reg) (v : Word) : (s.setReg r v).xmem = s.xmem := rfl
@[simp] theorem State.setReg_slots (r : Reg) (v : Word) : (s.setReg r v).slots = s.slots := rfl
@[simp] theorem State.setReg_vaults (r : Reg) (v : Word) : (s.setReg r v).vaults = s.vaults := rfl
@[simp] theorem State.setReg_lastErr (r : Reg) (v : Word) : (s.setReg r v).lastErr = s.lastErr := rfl
@[simp] theorem State.setReg_response (r : Reg) (v : Word) : (s.setReg r v).response = s.response := rfl
@[simp] theorem State.setReg_port (r : Reg) (v : Word) : (s.setReg r v).port = s.port := rfl
@[simp] theorem State.setReg_rngIn (r : Reg) (v : Word) : (s.setReg r v).rngIn = s.rngIn := rfl
@[simp] theorem State.setReg_draws (r : Reg) (v : Word) : (s.setReg r v).draws = s.draws := rfl
@[simp] theorem State.setReg_resets (r : Reg) (v : Word) : (s.setReg r v).resets = s.resets := rfl

/-! ### bumpReg -/

@[simp] theorem State.bumpReg_params (r : Reg) : (s.bumpReg r).params = s.params := rfl
@[simp] theorem State.bumpReg_regs (r : Reg) : (s.bumpReg r).regs = s.regs.set r.val (s.reg r + 1#32) := rfl
@[simp] theorem State.bumpReg_sync0 (r : Reg) : (s.bumpReg r).sync0 = s.sync0 := rfl
@[simp] theorem State.bumpReg_sync1 (r : Reg) : (s.bumpReg r).sync1 = s.sync1 := rfl
@[simp] theorem State.bumpReg_sbox (r : Reg) : (s.bumpReg r).sbox = s.sbox := rfl
@[simp] theorem State.bumpReg_engine (r : Reg) : (s.bumpReg r).engine = s.engine := rfl
@[simp] theorem State.bumpReg_xmem (r : Reg) : (s.bumpReg r).xmem = s.xmem := rfl
@[simp] theorem State.bumpReg_slots (r : Reg) : (s.bumpReg r).slots = s.slots := rfl
@[simp] theorem State.bumpReg_vaults (r : Reg) : (s.bumpReg r).vaults = s.vaults := rfl
@[simp] theorem State.bumpReg_lastErr (r : Reg) : (s.bumpReg r).lastErr = s.lastErr := rfl
@[simp] theorem State.bumpReg_response (r : Reg) : (s.bumpReg r).response = s.response := rfl
@[simp] theorem State.bumpReg_port (r : Reg) : (s.bumpReg r).port = s.port := rfl
@[simp] theorem State.bumpReg_rngIn (r : Reg) : (s.bumpReg r).rngIn = s.rngIn := rfl
@[simp] theorem State.bumpReg_draws (r : Reg) : (s.bumpReg r).draws = s.draws := rfl
@[simp] theorem State.bumpReg_resets (r : Reg) : (s.bumpReg r).resets = s.resets := rfl

/-! ### storeBytes -/

@[simp] theorem State.storeBytes_params (a : Nat) (vs : List Byte) : (s.storeBytes a vs).params = s.params := rfl
@[simp] theorem State.storeBytes_regs (a : Nat) (vs : List Byte) : (s.storeBytes a vs).regs = s.regs := rfl
@[simp] theorem State.storeBytes_sync0 (a : Nat) (vs : List Byte) : (s.storeBytes a vs).sync0 = s.sync0 := rfl
@[simp] theorem State.storeBytes_sync1 (a : Nat) (vs : List Byte) : (s.storeBytes a vs).sync1 = s.sync1 := rfl
@[simp] theorem State.storeBytes_sbox (a : Nat) (vs : List Byte) : (s.storeBytes a vs).sbox = s.sbox := rfl
@[simp] theorem State.storeBytes_engine (a : Nat) (vs : List Byte) : (s.storeBytes a vs).engine = s.engine := rfl
@[simp] theorem State.storeBytes_xmem (a : Nat) (vs : List Byte) :
    (s.storeBytes a vs).xmem =
      Memory.putAll s.xmem a vs := rfl
@[simp] theorem State.storeBytes_slots (a : Nat) (vs : List Byte) : (s.storeBytes a vs).slots = s.slots := rfl
@[simp] theorem State.storeBytes_vaults (a : Nat) (vs : List Byte) : (s.storeBytes a vs).vaults = s.vaults := rfl
@[simp] theorem State.storeBytes_lastErr (a : Nat) (vs : List Byte) : (s.storeBytes a vs).lastErr = s.lastErr := rfl
@[simp] theorem State.storeBytes_response (a : Nat) (vs : List Byte) :
    (s.storeBytes a vs).response =
      s.response := rfl
@[simp] theorem State.storeBytes_port (a : Nat) (vs : List Byte) : (s.storeBytes a vs).port = s.port := rfl
@[simp] theorem State.storeBytes_rngIn (a : Nat) (vs : List Byte) : (s.storeBytes a vs).rngIn = s.rngIn := rfl
@[simp] theorem State.storeBytes_draws (a : Nat) (vs : List Byte) : (s.storeBytes a vs).draws = s.draws := rfl
@[simp] theorem State.storeBytes_resets (a : Nat) (vs : List Byte) : (s.storeBytes a vs).resets = s.resets := rfl

/-! ### storeWord -/

@[simp] theorem State.storeWord_params (a : Nat) (w : Word) : (s.storeWord a w).params = s.params := rfl
@[simp] theorem State.storeWord_regs (a : Nat) (w : Word) : (s.storeWord a w).regs = s.regs := rfl
@[simp] theorem State.storeWord_sync0 (a : Nat) (w : Word) : (s.storeWord a w).sync0 = s.sync0 := rfl
@[simp] theorem State.storeWord_sync1 (a : Nat) (w : Word) : (s.storeWord a w).sync1 = s.sync1 := rfl
@[simp] theorem State.storeWord_sbox (a : Nat) (w : Word) : (s.storeWord a w).sbox = s.sbox := rfl
@[simp] theorem State.storeWord_engine (a : Nat) (w : Word) : (s.storeWord a w).engine = s.engine := rfl
@[simp] theorem State.storeWord_xmem (a : Nat) (w : Word) :
    (s.storeWord a w).xmem =
      Memory.putAll s.xmem a (wordBytes w) := rfl
@[simp] theorem State.storeWord_slots (a : Nat) (w : Word) : (s.storeWord a w).slots = s.slots := rfl
@[simp] theorem State.storeWord_vaults (a : Nat) (w : Word) : (s.storeWord a w).vaults = s.vaults := rfl
@[simp] theorem State.storeWord_lastErr (a : Nat) (w : Word) : (s.storeWord a w).lastErr = s.lastErr := rfl
@[simp] theorem State.storeWord_response (a : Nat) (w : Word) : (s.storeWord a w).response = s.response := rfl
@[simp] theorem State.storeWord_port (a : Nat) (w : Word) : (s.storeWord a w).port = s.port := rfl
@[simp] theorem State.storeWord_rngIn (a : Nat) (w : Word) : (s.storeWord a w).rngIn = s.rngIn := rfl
@[simp] theorem State.storeWord_draws (a : Nat) (w : Word) : (s.storeWord a w).draws = s.draws := rfl
@[simp] theorem State.storeWord_resets (a : Nat) (w : Word) : (s.storeWord a w).resets = s.resets := rfl

/-! ### setSlot -/

@[simp] theorem State.setSlot_params (b : SlotIx) (sl : Slot) : (s.setSlot b sl).params = s.params := rfl
@[simp] theorem State.setSlot_regs (b : SlotIx) (sl : Slot) : (s.setSlot b sl).regs = s.regs := rfl
@[simp] theorem State.setSlot_sync0 (b : SlotIx) (sl : Slot) : (s.setSlot b sl).sync0 = s.sync0 := rfl
@[simp] theorem State.setSlot_sync1 (b : SlotIx) (sl : Slot) : (s.setSlot b sl).sync1 = s.sync1 := rfl
@[simp] theorem State.setSlot_sbox (b : SlotIx) (sl : Slot) : (s.setSlot b sl).sbox = s.sbox := rfl
@[simp] theorem State.setSlot_engine (b : SlotIx) (sl : Slot) : (s.setSlot b sl).engine = s.engine := rfl
@[simp] theorem State.setSlot_xmem (b : SlotIx) (sl : Slot) : (s.setSlot b sl).xmem = s.xmem := rfl
@[simp] theorem State.setSlot_slots (b : SlotIx) (sl : Slot) : (s.setSlot b sl).slots = s.slots.set b.val sl := rfl
@[simp] theorem State.setSlot_vaults (b : SlotIx) (sl : Slot) : (s.setSlot b sl).vaults = s.vaults := rfl
@[simp] theorem State.setSlot_lastErr (b : SlotIx) (sl : Slot) : (s.setSlot b sl).lastErr = s.lastErr := rfl
@[simp] theorem State.setSlot_response (b : SlotIx) (sl : Slot) : (s.setSlot b sl).response = s.response := rfl
@[simp] theorem State.setSlot_port (b : SlotIx) (sl : Slot) : (s.setSlot b sl).port = s.port := rfl
@[simp] theorem State.setSlot_rngIn (b : SlotIx) (sl : Slot) : (s.setSlot b sl).rngIn = s.rngIn := rfl
@[simp] theorem State.setSlot_draws (b : SlotIx) (sl : Slot) : (s.setSlot b sl).draws = s.draws := rfl
@[simp] theorem State.setSlot_resets (b : SlotIx) (sl : Slot) : (s.setSlot b sl).resets = s.resets := rfl

/-! ### setVault -/

@[simp] theorem State.setVault_params (b : VaultIx) (x : Vault) : (s.setVault b x).params = s.params := rfl
@[simp] theorem State.setVault_regs (b : VaultIx) (x : Vault) : (s.setVault b x).regs = s.regs := rfl
@[simp] theorem State.setVault_sync0 (b : VaultIx) (x : Vault) : (s.setVault b x).sync0 = s.sync0 := rfl
@[simp] theorem State.setVault_sync1 (b : VaultIx) (x : Vault) : (s.setVault b x).sync1 = s.sync1 := rfl
@[simp] theorem State.setVault_sbox (b : VaultIx) (x : Vault) : (s.setVault b x).sbox = s.sbox := rfl
@[simp] theorem State.setVault_engine (b : VaultIx) (x : Vault) : (s.setVault b x).engine = s.engine := rfl
@[simp] theorem State.setVault_xmem (b : VaultIx) (x : Vault) : (s.setVault b x).xmem = s.xmem := rfl
@[simp] theorem State.setVault_slots (b : VaultIx) (x : Vault) : (s.setVault b x).slots = s.slots := rfl
@[simp] theorem State.setVault_vaults (b : VaultIx) (x : Vault) :
    (s.setVault b x).vaults =
      s.vaults.set b.val x := rfl
@[simp] theorem State.setVault_lastErr (b : VaultIx) (x : Vault) : (s.setVault b x).lastErr = s.lastErr := rfl
@[simp] theorem State.setVault_response (b : VaultIx) (x : Vault) : (s.setVault b x).response = s.response := rfl
@[simp] theorem State.setVault_port (b : VaultIx) (x : Vault) : (s.setVault b x).port = s.port := rfl
@[simp] theorem State.setVault_rngIn (b : VaultIx) (x : Vault) : (s.setVault b x).rngIn = s.rngIn := rfl
@[simp] theorem State.setVault_draws (b : VaultIx) (x : Vault) : (s.setVault b x).draws = s.draws := rfl
@[simp] theorem State.setVault_resets (b : VaultIx) (x : Vault) : (s.setVault b x).resets = s.resets := rfl

/-! ### rngAdvance -/

@[simp] theorem State.rngAdvance_params (n : Nat) : (s.rngAdvance n).params = s.params := rfl
@[simp] theorem State.rngAdvance_regs (n : Nat) : (s.rngAdvance n).regs = s.regs := rfl
@[simp] theorem State.rngAdvance_sync0 (n : Nat) : (s.rngAdvance n).sync0 = s.sync0 := rfl
@[simp] theorem State.rngAdvance_sync1 (n : Nat) : (s.rngAdvance n).sync1 = s.sync1 := rfl
@[simp] theorem State.rngAdvance_sbox (n : Nat) : (s.rngAdvance n).sbox = s.sbox := rfl
@[simp] theorem State.rngAdvance_engine (n : Nat) : (s.rngAdvance n).engine = s.engine := rfl
@[simp] theorem State.rngAdvance_xmem (n : Nat) : (s.rngAdvance n).xmem = s.xmem := rfl
@[simp] theorem State.rngAdvance_slots (n : Nat) : (s.rngAdvance n).slots = s.slots := rfl
@[simp] theorem State.rngAdvance_vaults (n : Nat) : (s.rngAdvance n).vaults = s.vaults := rfl
@[simp] theorem State.rngAdvance_lastErr (n : Nat) : (s.rngAdvance n).lastErr = s.lastErr := rfl
@[simp] theorem State.rngAdvance_response (n : Nat) : (s.rngAdvance n).response = s.response := rfl
@[simp] theorem State.rngAdvance_port (n : Nat) : (s.rngAdvance n).port = s.port := rfl
@[simp] theorem State.rngAdvance_rngIn (n : Nat) : (s.rngAdvance n).rngIn = s.rngIn.drop n := rfl
@[simp] theorem State.rngAdvance_draws (n : Nat) : (s.rngAdvance n).draws = s.draws + n := rfl
@[simp] theorem State.rngAdvance_resets (n : Nat) : (s.rngAdvance n).resets = s.resets := rfl

/-! ### present -/

@[simp] theorem State.present_params (w : Word) : (s.present w).params = s.params := rfl
@[simp] theorem State.present_regs (w : Word) : (s.present w).regs = s.regs := rfl
@[simp] theorem State.present_sync0 (w : Word) : (s.present w).sync0 = s.sync0 := rfl
@[simp] theorem State.present_sync1 (w : Word) : (s.present w).sync1 = s.sync1 := rfl
@[simp] theorem State.present_sbox (w : Word) : (s.present w).sbox = s.sbox := rfl
@[simp] theorem State.present_engine (w : Word) : (s.present w).engine = s.engine := rfl
@[simp] theorem State.present_xmem (w : Word) : (s.present w).xmem = s.xmem := rfl
@[simp] theorem State.present_slots (w : Word) : (s.present w).slots = s.slots := rfl
@[simp] theorem State.present_vaults (w : Word) : (s.present w).vaults = s.vaults := rfl
@[simp] theorem State.present_lastErr (w : Word) : (s.present w).lastErr = s.lastErr := rfl
@[simp] theorem State.present_response (w : Word) : (s.present w).response = s.response := rfl
@[simp] theorem State.present_port (w : Word) : (s.present w).port = HostInput.command w :: s.port := rfl
@[simp] theorem State.present_rngIn (w : Word) : (s.present w).rngIn = s.rngIn := rfl
@[simp] theorem State.present_draws (w : Word) : (s.present w).draws = s.draws := rfl
@[simp] theorem State.present_resets (w : Word) : (s.present w).resets = s.resets := rfl

/-! ### transformXmem -/

@[simp] theorem State.transformXmem_params (key : Key) (d c n : Nat) :
    (s.transformXmem key d c n).params =
      s.params := rfl
@[simp] theorem State.transformXmem_regs (key : Key) (d c n : Nat) : (s.transformXmem key d c n).regs = s.regs := rfl
@[simp] theorem State.transformXmem_sync0 (key : Key) (d c n : Nat) :
    (s.transformXmem key d c n).sync0 =
      s.sync0 := rfl
@[simp] theorem State.transformXmem_sync1 (key : Key) (d c n : Nat) :
    (s.transformXmem key d c n).sync1 =
      s.sync1 := rfl
@[simp] theorem State.transformXmem_sbox (key : Key) (d c n : Nat) : (s.transformXmem key d c n).sbox = s.sbox := rfl
@[simp] theorem State.transformXmem_engine (key : Key) (d c n : Nat) :
    (s.transformXmem key d c n).engine =
      (s.engine.transform s.sbox (s.sync0, s.sync1) key (s.xmemBytes c n)).2 := rfl
@[simp] theorem State.transformXmem_xmem (key : Key) (d c n : Nat) :
    (s.transformXmem key d c n).xmem =
      Memory.putAll s.xmem d (s.engine.transform s.sbox (s.sync0, s.sync1) key (s.xmemBytes c n)).1 := rfl
@[simp] theorem State.transformXmem_slots (key : Key) (d c n : Nat) :
    (s.transformXmem key d c n).slots =
      s.slots := rfl
@[simp] theorem State.transformXmem_vaults (key : Key) (d c n : Nat) :
    (s.transformXmem key d c n).vaults =
      s.vaults := rfl
@[simp] theorem State.transformXmem_lastErr (key : Key) (d c n : Nat) :
    (s.transformXmem key d c n).lastErr =
      s.lastErr := rfl
@[simp] theorem State.transformXmem_response (key : Key) (d c n : Nat) :
    (s.transformXmem key d c n).response =
      s.response := rfl
@[simp] theorem State.transformXmem_port (key : Key) (d c n : Nat) : (s.transformXmem key d c n).port = s.port := rfl
@[simp] theorem State.transformXmem_rngIn (key : Key) (d c n : Nat) :
    (s.transformXmem key d c n).rngIn =
      s.rngIn := rfl
@[simp] theorem State.transformXmem_draws (key : Key) (d c n : Nat) :
    (s.transformXmem key d c n).draws =
      s.draws := rfl
@[simp] theorem State.transformXmem_resets (key : Key) (d c n : Nat) :
    (s.transformXmem key d c n).resets =
      s.resets := rfl

/-! ### takeReset -/

@[simp] theorem State.takeReset_params :
    s.takeReset.params = s.params := rfl
@[simp] theorem State.takeReset_regs :
    s.takeReset.regs = (State.afterReset s.params (s.resets + 1)).regs := rfl
@[simp] theorem State.takeReset_sync0 :
    s.takeReset.sync0 = (State.afterReset s.params (s.resets + 1)).sync0 := rfl
@[simp] theorem State.takeReset_sync1 :
    s.takeReset.sync1 = (State.afterReset s.params (s.resets + 1)).sync1 := rfl
@[simp] theorem State.takeReset_sbox :
    s.takeReset.sbox = (State.afterReset s.params (s.resets + 1)).sbox := rfl
@[simp] theorem State.takeReset_engine :
    s.takeReset.engine = (State.afterReset s.params (s.resets + 1)).engine := rfl
@[simp] theorem State.takeReset_xmem :
    s.takeReset.xmem = Memory.afterReset (s.resets + 1) s.xmem := rfl
@[simp] theorem State.takeReset_slots :
    s.takeReset.slots = (State.afterReset s.params (s.resets + 1)).slots := rfl
@[simp] theorem State.takeReset_vaults :
    s.takeReset.vaults = (State.afterReset s.params (s.resets + 1)).vaults := rfl
@[simp] theorem State.takeReset_lastErr :
    s.takeReset.lastErr = (State.afterReset s.params (s.resets + 1)).lastErr := rfl
@[simp] theorem State.takeReset_response :
    s.takeReset.response = (State.afterReset s.params (s.resets + 1)).response := rfl
@[simp] theorem State.takeReset_port :
    s.takeReset.port = s.port := rfl
@[simp] theorem State.takeReset_rngIn :
    s.takeReset.rngIn = s.rngIn := rfl
@[simp] theorem State.takeReset_draws :
    s.takeReset.draws = s.draws := rfl
@[simp] theorem State.takeReset_resets :
    s.takeReset.resets = s.resets + 1 := rfl

/-! ### Registers, slots and vaults after their own update -/

@[simp] theorem State.reg_setReg (r q : Reg) (v : Word) :
    (s.setReg r v).reg q = if r = q then v else s.reg q := by
  simp only [State.reg, State.setReg_regs, Vector.getElem_set, Fin.ext_iff]

@[simp] theorem State.reg_bumpReg (r q : Reg) :
    (s.bumpReg r).reg q = if r = q then s.reg r + 1#32 else s.reg q :=
  State.reg_setReg s r q _

/-- An update that keeps the register file keeps every register. -/
theorem State.reg_congr {s t : State} (h : t.regs = s.regs) (r : Reg) : t.reg r = s.reg r := by
  simp only [State.reg, h]

@[simp] theorem State.reg_complete (e : ErrCode) (v : Word) (r : Reg) :
    (s.complete e v).reg r = s.reg r := rfl
@[simp] theorem State.reg_storeBytes (a : Nat) (vs : List Byte) (r : Reg) :
    (s.storeBytes a vs).reg r = s.reg r := rfl
@[simp] theorem State.reg_storeWord (a : Nat) (w : Word) (r : Reg) :
    (s.storeWord a w).reg r = s.reg r := rfl
@[simp] theorem State.reg_setSlot (b : SlotIx) (sl : Slot) (r : Reg) :
    (s.setSlot b sl).reg r = s.reg r := rfl
@[simp] theorem State.reg_setVault (b : VaultIx) (x : Vault) (r : Reg) :
    (s.setVault b x).reg r = s.reg r := rfl
@[simp] theorem State.reg_rngAdvance (n : Nat) (r : Reg) :
    (s.rngAdvance n).reg r = s.reg r := rfl
@[simp] theorem State.reg_transformXmem (key : Key) (d c n : Nat) (r : Reg) :
    (s.transformXmem key d c n).reg r = s.reg r := rfl

/-- A slot number that names a slot is below the number of slots. -/
theorem State.slot?_lt {s : State} {b : SlotIx} {sl : Slot} (h : s.slot? b = some sl) :
    b.val < s.slots.length := (List.getElem?_eq_some_iff.mp h).1

/-- A vault number that names a vault is below the number of vaults. -/
theorem State.vault?_lt {s : State} {v : VaultIx} {x : Vault} (h : s.vault? v = some x) :
    v.val < s.vaults.length := (List.getElem?_eq_some_iff.mp h).1

theorem State.slot?_setSlot_self {s : State} {b : SlotIx} {sl : Slot} (h : s.slot? b = some sl)
    (sl' : Slot) : (s.setSlot b sl').slot? b = some sl' := by
  simp only [State.slot?, State.setSlot_slots, List.getElem?_set_self (State.slot?_lt h)]

theorem State.slots_setSlot_of_ne {s : State} {b : SlotIx} {j : Nat} (h : j ≠ b.val) (sl' : Slot) :
    (s.setSlot b sl').slots[j]? = s.slots[j]? := by
  simp only [State.setSlot_slots, List.getElem?_set_ne (Ne.symm h)]

theorem State.vault?_setVault_self {s : State} {v : VaultIx} {x : Vault} (h : s.vault? v = some x)
    (x' : Vault) : (s.setVault v x').vault? v = some x' := by
  simp only [State.vault?, State.setVault_vaults, List.getElem?_set_self (State.vault?_lt h)]

theorem State.vaults_setVault_of_ne {s : State} {v : VaultIx} {j : Nat} (h : j ≠ v.val) (x' : Vault) :
    (s.setVault v x').vaults[j]? = s.vaults[j]? := by
  simp only [State.setVault_vaults, List.getElem?_set_ne (Ne.symm h)]

end Sys2Proof.Machine
end

