-- ==== Sys2Proof/Laws/Memory.lean ====
section
/-! SUPPORT. The laws of `XMEM`: a read after a write, the form every operation keeps, and the byte sequences. -/

namespace Sys2Proof.Machine

/-! ## Reads after writes -/

@[simp] theorem Memory.byteAt?_nil (x : Nat) : Memory.byteAt? [] x = none := rfl

@[simp] theorem Memory.byteAt?_cons (c : Host.Cell) (m : Memory) (x : Nat) :
    Memory.byteAt? (c :: m) x = if c.1 = x then some c.2 else Memory.byteAt? m x := rfl

/-- A write gives the value at its own address and leaves every other address alone. -/
theorem Memory.byteAt?_put (m : Memory) (a : Nat) (v : Byte) (x : Nat) :
    Memory.byteAt? (Memory.put m a v) x = if a = x then some v else Memory.byteAt? m x := by
  induction m with
  | nil => simp [Memory.put]
  | cons c m ih =>
    unfold Memory.put
    split
    · simp
    · split
      · next h => subst h; by_cases hx : c.1 = x <;> simp [hx]
      · next h =>
        simp only [Memory.byteAt?_cons, ih]
        by_cases hc : c.1 = x
        · subst hc; simp [h]
        · simp [hc]

/-- A sequence write gives byte `x - a` inside its range and leaves every address outside alone. -/
theorem Memory.byteAt?_putAll (vs : List Byte) (m : Memory) (a x : Nat) :
    Memory.byteAt? (Memory.putAll m a vs) x =
      if a ≤ x ∧ x < a + vs.length then vs[x - a]? else Memory.byteAt? m x := by
  induction vs generalizing m a with
  | nil => simp only [Memory.putAll, List.length_nil]; rw [if_neg (by omega)]
  | cons v vs ih =>
    simp only [Memory.putAll, ih, Memory.byteAt?_put, List.length_cons]
    by_cases h : a = x
    · subst h; rw [if_neg (by omega), if_pos rfl, if_pos (by omega)]; simp
    · rw [if_neg h]
      by_cases h1 : a + 1 ≤ x ∧ x < a + 1 + vs.length
      · rw [if_pos h1, if_pos (by omega)]
        obtain ⟨k, rfl⟩ : ∃ k, x = a + 1 + k := ⟨x - (a + 1), by omega⟩
        have e1 : a + 1 + k - (a + 1) = k := by omega
        have e2 : a + 1 + k - a = k + 1 := by omega
        rw [e1, e2, List.getElem?_cons_succ]
      · rw [if_neg h1, if_neg (by omega)]

/-- A reset input keeps which bytes are listed and gives each its free value. -/
theorem Memory.byteAt?_afterReset (r : Nat) (m : Memory) (x : Nat) :
    Memory.byteAt? (Memory.afterReset r m) x = (Memory.byteAt? m x).map (Config.xmemReset r x) := by
  induction m with
  | nil => rfl
  | cons c m ih =>
    rw [Memory.afterReset] at ih
    simp only [Memory.afterReset, List.map_cons, Memory.byteAt?_cons, ih]
    split
    · next h => subst h; rfl
    · rfl

/-! ## The form -/

/-- The addresses a write can add: its own. -/
theorem Memory.put_mem {m : Memory} {a : Nat} {v : Byte} {c : Host.Cell}
    (h : c ∈ Memory.put m a v) : c.1 = a ∨ c ∈ m := by
  induction m with
  | nil => simp [Memory.put] at h; simp [h]
  | cons d m ih =>
    unfold Memory.put at h
    split at h
    · simp at h; rcases h with rfl | h <;> simp_all
    · split at h
      · simp at h; rcases h with rfl | h <;> simp_all
      · simp at h; rcases h with rfl | h
        · simp
        · rcases ih h with h | h <;> simp [h]

theorem Memory.put_wf {size : Nat} {m : Memory} (h : Memory.wf size m) {a : Nat} (ha : a < size)
    (v : Byte) : Memory.wf size (Memory.put m a v) := by
  refine ⟨?_, fun c hc => ?_⟩
  · have hp := h.1
    clear h
    induction m with
    | nil => simp [Memory.put]
    | cons d m ih =>
      have ⟨hd, hm⟩ := List.pairwise_cons.mp hp
      unfold Memory.put
      split
      · next hlt =>
        refine List.pairwise_cons.mpr ⟨fun c hc => ?_, hp⟩
        rcases List.mem_cons.mp hc with rfl | hc
        · exact hlt
        · exact lt_trans hlt (hd c hc)
      · split
        · next h1 h2 =>
          exact List.pairwise_cons.mpr ⟨fun c hc => by simpa [h2] using hd c hc, hm⟩
        · next h1 h2 =>
          refine List.pairwise_cons.mpr ⟨fun c hc => ?_, ih hm⟩
          rcases Memory.put_mem hc with h | h
          · omega
          · exact hd c h
  · rcases Memory.put_mem hc with h1 | h1
    · omega
    · exact h.2 c h1

theorem Memory.putAll_wf {size : Nat} (vs : List Byte) {m : Memory} (h : Memory.wf size m) {a : Nat}
    (ha : vs = [] ∨ a + vs.length ≤ size) : Memory.wf size (Memory.putAll m a vs) := by
  induction vs generalizing m a with
  | nil => exact h
  | cons v vs ih =>
    have hl : a + (vs.length + 1) ≤ size := by simpa using ha
    refine ih (Memory.put_wf h (by omega) v) ?_
    rcases vs with _ | ⟨w, ws⟩
    · exact .inl rfl
    · exact .inr (by omega)

/-- A reset input keeps the form. -/
theorem Memory.afterReset_wf {size : Nat} {m : Memory} (h : Memory.wf size m) (r : Nat) :
    Memory.wf size (Memory.afterReset r m) := by
  refine ⟨List.pairwise_map.mpr h.1, fun c hc => ?_⟩
  obtain ⟨d, hd, rfl⟩ := List.mem_map.mp hc
  exact h.2 d hd

/-- The memory after reset has the form. -/
theorem Memory.reset_wf : Memory.wf State.reset.params.xmemSize State.reset.xmem := by decide

/-! ## Bytes of the state's memory -/

/-- Two states whose memory and reset count agree hold the same bytes. -/
theorem State.xmemByte_congr {s t : State} (hx : t.xmem = s.xmem) (hr : t.resets = s.resets) (x : Nat) :
    t.xmemByte x = s.xmemByte x := by simp only [State.xmemByte, hx, hr]

/-- What a reset input does to every byte of `XMEM`, written or not. -/
theorem State.xmemByte_takeReset (s : State) (x : Nat) :
    s.takeReset.xmemByte x = Config.xmemReset (s.resets + 1) x (s.xmemByte x) := by
  simp only [State.xmemByte, State.takeReset_xmem, State.takeReset_resets, Memory.byteAt?_afterReset]
  cases Memory.byteAt? s.xmem x <;> rfl

/-- What a sequence write does to every byte of `XMEM`. -/
theorem State.xmemByte_storeBytes (s : State) (a : Nat) (vs : List Byte) (x : Nat) :
    (s.storeBytes a vs).xmemByte x =
      if h : a ≤ x ∧ x < a + vs.length then vs[x - a]'(by omega) else s.xmemByte x := by
  simp only [State.xmemByte, State.storeBytes_xmem, State.storeBytes_resets, Memory.byteAt?_putAll]
  by_cases h : a ≤ x ∧ x < a + vs.length
  · rw [if_pos h, dif_pos h, List.getElem?_eq_getElem (by omega)]
  · rw [if_neg h, dif_neg h]

theorem State.xmemByte_storeBytes_inside (s : State) (a : Nat) (vs : List Byte) {j : Nat}
    (h : j < vs.length) : (s.storeBytes a vs).xmemByte (a + j) = vs[j] := by
  rw [State.xmemByte_storeBytes, dif_pos (by omega)]
  simp

theorem State.xmemByte_storeBytes_outside (s : State) (a : Nat) (vs : List Byte) {x : Nat}
    (h : x < a ∨ a + vs.length ≤ x) : (s.storeBytes a vs).xmemByte x = s.xmemByte x := by
  rw [State.xmemByte_storeBytes, dif_neg (by omega)]

@[simp] theorem State.xmemBytes_length (s : State) (a n : Nat) : (s.xmemBytes a n).length = n := by
  simp [State.xmemBytes]

@[simp] theorem State.xmemBytes_getElem (s : State) (a n j : Nat) (h : j < (s.xmemBytes a n).length) :
    (s.xmemBytes a n)[j] = s.xmemByte (a + j) := by simp [State.xmemBytes]

/-- Reading back the range a sequence was written to gives the sequence. -/
theorem State.xmemBytes_storeBytes (s : State) (a : Nat) (vs : List Byte) :
    (s.storeBytes a vs).xmemBytes a vs.length = vs := by
  apply List.ext_getElem
  · simp
  · intro j h1 h2
    rw [State.xmemBytes_getElem, State.xmemByte_storeBytes_inside s a vs h2]

/-- A range whose bytes agree reads the same. -/
theorem State.xmemBytes_congr {s t : State} {a n : Nat}
    (h : ∀ j, j < n → t.xmemByte (a + j) = s.xmemByte (a + j)) :
    t.xmemBytes a n = s.xmemBytes a n := by
  apply List.ext_getElem
  · simp
  · intro j h1 _
    simpa using h j (by simpa using h1)

@[simp] theorem State.xmemByte_complete (s : State) (e : ErrCode) (v : Word) (x : Nat) :
    (s.complete e v).xmemByte x = s.xmemByte x := rfl
@[simp] theorem State.xmemByte_setReg (s : State) (r : Reg) (v : Word) (x : Nat) :
    (s.setReg r v).xmemByte x = s.xmemByte x := rfl
@[simp] theorem State.xmemByte_bumpReg (s : State) (r : Reg) (x : Nat) :
    (s.bumpReg r).xmemByte x = s.xmemByte x := rfl
@[simp] theorem State.xmemByte_setSlot (s : State) (b : SlotIx) (sl : Slot) (x : Nat) :
    (s.setSlot b sl).xmemByte x = s.xmemByte x := rfl
@[simp] theorem State.xmemByte_setVault (s : State) (v : VaultIx) (y : Vault) (x : Nat) :
    (s.setVault v y).xmemByte x = s.xmemByte x := rfl
@[simp] theorem State.xmemByte_rngAdvance (s : State) (n x : Nat) :
    (s.rngAdvance n).xmemByte x = s.xmemByte x := rfl

/-- The transform of `XMEM` writes its output like any sequence write. -/
theorem State.xmemByte_transformXmem (s : State) (key : Key) (d c n x : Nat) :
    (s.transformXmem key d c n).xmemByte x =
      (s.storeBytes d
        (s.engine.transform s.sbox (s.sync0, s.sync1) key (s.xmemBytes c n)).1).xmemByte x := rfl

@[simp] theorem wordBytes_length (w : Word) : (wordBytes w).length = 4 := rfl

/-- The four bytes of a word, put together again, are the word. -/
theorem le32_wordBytes (w : Word) :
    le32 (w.extractLsb' 0 8) (w.extractLsb' 8 8) (w.extractLsb' 16 8) (w.extractLsb' 24 8) = w := by
  unfold le32
  ext i hi
  simp only [BitVec.getElem_append, BitVec.getElem_extractLsb']
  split
  · simp [BitVec.getElem_eq_testBit_toNat, BitVec.getLsbD]
  · split
    · rw [show 8 + (i - 8) = i by omega]; exact BitVec.getLsbD_eq_getElem hi
    · split
      · rw [show 16 + (i - 8 - 8) = i by omega]; exact BitVec.getLsbD_eq_getElem hi
      · rw [show 24 + (i - 8 - 8 - 8) = i by omega]; exact BitVec.getLsbD_eq_getElem hi

/-- A word stored is the word loaded from the same address (20_memory.md R33). -/
theorem State.loadWord_storeWord (s : State) (a : Nat) (w : Word) :
    (s.storeWord a w).loadWord a = w := by
  have h := fun j (hj : j < (wordBytes w).length) =>
    State.xmemByte_storeBytes_inside s a (wordBytes w) (j := j) hj
  have h0 := h 0 (by simp)
  have h1 := h 1 (by simp)
  have h2 := h 2 (by simp)
  have h3 := h 3 (by simp)
  simp only [State.loadWord, State.storeWord]
  simp only [Nat.add_zero] at h0
  rw [h0, h1, h2, h3]
  exact le32_wordBytes w

end Sys2Proof.Machine
end

