-- ==== Sys2Proof/Laws/Ops.lean ====
section
/-! SUPPORT. What the shared operations do, each said once: ending a command, the random source, slots, vaults, the
key source, the status bits. -/

namespace Sys2Proof.Machine

/-! ## Ending a command -/

theorem respond_eq_next {v : Word} {s t : State} :
    respond v s = .next t ↔ t = s.complete .success v := by
  simp only [respond, Host.Outcome.next.injEq, eq_comm]

theorem raise_eq_next {e : ErrCode} {s t : State} : raise e s = .next t ↔ t = s.complete e 0#32 := by
  simp only [raise, Host.Outcome.next.injEq, eq_comm]

theorem State.complete_answers (s : State) (e : ErrCode) (v : Word) : Answers (s.complete e v) e v :=
  ⟨rfl, rfl⟩

/-! ## The random source -/

@[simp] theorem State.rngBytes_length (s : State) (n : Nat) : (s.rngBytes n).length = n := by
  simp [State.rngBytes]

@[simp] theorem State.rngBytes_getElem (s : State) (n i : Nat) (h : i < (s.rngBytes n).length) :
    (s.rngBytes n)[i] = s.rngByte i := by simp [State.rngBytes]

@[simp] theorem State.rngPad_getElem (s : State) (i : Nat) (h : i < 32) :
    s.rngPad[i] = s.rngByte i := by simp [State.rngPad]

/-- The source's answers depend on what it has ready and on the count of bytes drawn alone. -/
theorem State.rngByte_congr {s t : State} (h1 : t.rngIn = s.rngIn) (h2 : t.draws = s.draws) (i : Nat) :
    t.rngByte i = s.rngByte i := by simp only [State.rngByte, h1, h2]

/-! ## Slots -/

@[simp] theorem Slot.content_length (sl : Slot) : sl.content.length = sl.len := by simp [Slot.content]

@[simp] theorem Slot.content_getElem (sl : Slot) (i : Nat) (h : i < sl.content.length) :
    sl.content[i] = sl.byte i := by simp [Slot.content]

/-- A live slot holds the given bytes and zeros beyond them. -/
theorem Slot.byte_live (cap : Nat) (vs : List Byte) (i : Nat) :
    (Slot.live cap vs).byte i = if h : i < vs.length then vs[i] else 0#8 := by
  simp only [Slot.byte, Slot.live, List.getD_eq_getElem?_getD, List.getElem?_append]
  split
  · next h => simp [h]
  · simp only [List.getElem?_replicate]; split <;> rfl

theorem Slot.live_bytes_length {cap : Nat} {vs : List Byte} (h : vs.length ≤ cap) :
    (Slot.live cap vs).bytes.length = cap := by
  simp only [Slot.live, List.length_append, List.length_replicate]; omega

/-- A refilled slot holds the new bytes and, beyond them, what it held. -/
theorem Slot.byte_refill (sl : Slot) (vs : List Byte) (i : Nat) :
    (sl.refill vs).byte i = if h : i < vs.length then vs[i] else sl.byte i := by
  simp only [Slot.byte, Slot.refill, List.getD_eq_getElem?_getD, List.getElem?_append,
    List.getElem?_drop]
  split
  · next h => simp [h]
  · next h => rw [show vs.length + (i - vs.length) = i by omega]

@[simp] theorem Slot.live_valid (cap : Nat) (vs : List Byte) : (Slot.live cap vs).valid = true := rfl
@[simp] theorem Slot.live_len (cap : Nat) (vs : List Byte) : (Slot.live cap vs).len = vs.length := rfl
@[simp] theorem Slot.free_valid (cap : Nat) (fill : Byte) : (Slot.free cap fill).valid = false := rfl
@[simp] theorem Slot.free_len (cap : Nat) (fill : Byte) : (Slot.free cap fill).len = 0 := rfl
@[simp] theorem Slot.refill_valid (sl : Slot) (vs : List Byte) : (sl.refill vs).valid = sl.valid := rfl
@[simp] theorem Slot.refill_len (sl : Slot) (vs : List Byte) : (sl.refill vs).len = sl.len := rfl

@[simp] theorem Slot.key_getElem (sl : Slot) (i : Nat) (h : i < 32) : sl.key[i] = sl.byte i := by
  simp [Slot.key]

@[simp] theorem Slot.paddedKey_getElem (sl : Slot) (i : Nat) (h : i < 32) :
    sl.paddedKey[i] = if i < sl.len then sl.byte i else 0#8 := by simp [Slot.paddedKey]

/-! ## Vaults -/

@[simp] theorem keyXor_getElem (x y : Key) (i : Nat) (h : i < 32) :
    (keyXor x y)[i] = x[i] ^^^ y[i] := by simp [keyXor]

/-- The combiner undoes itself (44_vault_guard.md R94). -/
@[simp] theorem keyXor_keyXor (x y : Key) : keyXor (keyXor x y) y = x := by
  apply Vector.ext
  intro i hi
  simp

@[simp] theorem Vault.lock_valid (x : Vault) (pad : Key) : (x.lock pad).valid = x.valid := by simp only [Vault.lock]
@[simp] theorem Vault.lock_guard (x : Vault) (pad : Key) : (x.lock pad).guard = x.guard := by simp only [Vault.lock]
@[simp] theorem Vault.lock_data (x : Vault) (pad : Key) : (x.lock pad).data = keyXor x.data pad := by
  simp only [Vault.lock]
@[simp] theorem Vault.lock_mask (x : Vault) (pad : Key) : (x.lock pad).mask = pad := by simp only [Vault.lock]
@[simp] theorem Vault.unlock_valid (x : Vault) : x.unlock.valid = x.valid := by simp only [Vault.unlock]
@[simp] theorem Vault.unlock_guard (x : Vault) : x.unlock.guard = x.guard := by simp only [Vault.unlock]
@[simp] theorem Vault.unlock_data (x : Vault) : x.unlock.data = keyXor x.data x.mask := by simp only [Vault.unlock]
@[simp] theorem Vault.unlock_mask (x : Vault) : x.unlock.mask = x.mask := by simp only [Vault.unlock]

@[simp] theorem Key.zero_getElem (i : Nat) (h : i < 32) : Key.zero[i] = 0#8 := by simp [Key.zero]

/-! ## Key source -/

/-- Every way the key source of `XFORM` can turn out. -/
theorem State.keyOf_cases (s : State) (ks : KeySrc) :
    (s.keyOf ks = .error .illegalCommand ∧
      ((∃ b, ks = .slot b ∧ s.slot? b = none) ∨ ∃ v, ks = .vault v ∧ s.vault? v = none)) ∨
    (s.keyOf ks = .error .stateError ∧
      ((∃ b sl, ks = .slot b ∧ s.slot? b = some sl ∧ sl.valid = false) ∨
        ∃ v x, ks = .vault v ∧ s.vault? v = some x ∧ (x.valid = false ∨ x.guard = false))) ∨
    (s.keyOf ks = .error .lengthError ∧
      ∃ b sl, ks = .slot b ∧ s.slot? b = some sl ∧ sl.valid = true ∧ sl.len ≠ 32) ∨
    (∃ b sl, s.keyOf ks = .ok sl.key ∧ ks = .slot b ∧ s.slot? b = some sl ∧ sl.valid = true ∧
      sl.len = 32) ∨
    (∃ v x, s.keyOf ks = .ok x.data ∧ ks = .vault v ∧ s.vault? v = some x ∧ x.valid = true ∧
      x.guard = true) := by
  cases ks with
  | slot b =>
    rcases h : s.slot? b with _ | sl
    · simp [State.keyOf, h]
    · by_cases h1 : sl.valid = false
      · simp [State.keyOf, h, h1]
      · by_cases h2 : sl.len = 32
        · simp [State.keyOf, h, h1, h2]
        · simp [State.keyOf, h, h1, h2]
  | vault v =>
    rcases h : s.vault? v with _ | x
    · simp [State.keyOf, h]
    · by_cases h1 : x.valid = false
      · simp [State.keyOf, h, h1]
      · by_cases h2 : x.guard = false
        · simp [State.keyOf, h, h2]
        · simp [State.keyOf, h, h1, h2]

/-! ## Status bits -/

/-- Flag `i` stands in bit `i`. -/
theorem flagBits_getLsbD (n : Nat) (f : Nat → Bool) (i : Nat) :
    (flagBits n f).getLsbD i = (decide (i < n) && f i) := by
  induction n with
  | zero => simp [flagBits]
  | succ n ih =>
    simp only [flagBits, BitVec.getLsbD_cons, ih]
    split
    · next h => subst h; simp
    · next h => rw [decide_eq_decide.mpr (show i < n ↔ i < n + 1 by omega)]

end Sys2Proof.Machine
end

