-- ==== Sys2Proof/Laws/Cipher.lean ====
section
/-! SUPPORT. The laws of the cipher datapath that the other files cite: the length and the bytes of a combined group,
and what the loop of the transform depends on. -/

namespace Sys2Proof.Machine

/-! ## The engine's registers -/

@[simp] theorem Engine.counter_setCounter (e : Engine) (p : Word × Word) : (e.setCounter p).counter = p := rfl
@[simp] theorem Engine.counter_setGroup (e : Engine) (p : Word × Word) :
    (e.setGroup p).counter = e.counter := rfl
@[simp] theorem Engine.group_setGroup (e : Engine) (p : Word × Word) : (e.setGroup p).group = p := rfl
@[simp] theorem Engine.k_setCounter (e : Engine) (p : Word × Word) : (e.setCounter p).k = e.k := rfl
@[simp] theorem Engine.k_setGroup (e : Engine) (p : Word × Word) : (e.setGroup p).k = e.k := rfl
@[simp] theorem Engine.k_loadKey (e : Engine) (key : Key) : (e.loadKey key).k = keyWords key := rfl

@[simp] theorem Engine.k_nextGroup (t : SBox) (e : Engine) : (e.nextGroup t).k = e.k := by
  rw [Engine.nextGroup, Engine.k_setGroup, Engine.k_setCounter]

/-- A keystream group advances the counter pair and keeps the advanced value. -/
theorem Engine.counter_nextGroup (t : SBox) (e : Engine) : (e.nextGroup t).counter = advance e.counter := by
  rw [Engine.nextGroup, Engine.counter_setGroup, Engine.counter_setCounter]

/-- A keystream group is the block transform of the advanced counter pair. -/
theorem Engine.group_nextGroup (t : SBox) (e : Engine) :
    (e.nextGroup t).group = cipherBlock t e.k (advance e.counter) := by
  rw [Engine.nextGroup, Engine.group_setGroup]

@[simp] theorem Engine.k_start (t : SBox) (sync : Word × Word) (key : Key) (e : Engine) :
    (e.start t sync key).k = keyWords key := by
  rw [Engine.start, Engine.prime, Engine.k_setCounter, Engine.k_loadKey]

/-- The priming step leaves the block transform of the sync vector in the counter pair. -/
theorem Engine.counter_start (t : SBox) (sync : Word × Word) (key : Key) (e : Engine) :
    (e.start t sync key).counter = cipherBlock t (keyWords key) sync := by
  rw [Engine.start, Engine.prime, Engine.counter_setCounter, Engine.k_loadKey]

/-! ## Groups -/

@[simp] theorem combineGroup_length (g : Word × Word) (src : List Byte) :
    (combineGroup g src).length = src.length := by simp [combineGroup]

theorem combineGroup_getElem (g : Word × Word) (src : List Byte) (j : Nat)
    (h : j < (combineGroup g src).length) :
    (combineGroup g src)[j] = src[j]'(by simpa using h) ^^^ keystreamByte g j := by
  simp [combineGroup]

/-- The loop's output depends on the engine through `K`, `A`, `B` alone: `GA`, `GB` are written before they are
used. -/
theorem cryptGroups_congr (t : SBox) (n : Nat) {e f : Engine} (hk : e.k = f.k) (hc : e.counter = f.counter)
    (src : List Byte) : (cryptGroups t n e src).1 = (cryptGroups t n f src).1 := by
  induction n generalizing e f src with
  | zero => rfl
  | succ n ih =>
    have hk' : (e.nextGroup t).k = (f.nextGroup t).k := by rw [Engine.k_nextGroup, Engine.k_nextGroup, hk]
    have hc' : (e.nextGroup t).counter = (f.nextGroup t).counter := by
      rw [Engine.counter_nextGroup, Engine.counter_nextGroup, hc]
    simp only [cryptGroups]
    rw [Engine.group_nextGroup, Engine.group_nextGroup, hk, hc, ih hk' hc']

/-- The output of a transform does not depend on what the engine held before (40_cipher_datapath.md R70 (b)). -/
theorem Engine.transform_fst (t : SBox) (sync : Word × Word) (key : Key) (src : List Byte) (e : Engine) :
    (e.transform t sync key src).1 = Machine.transform t sync key src :=
  cryptGroups_congr t (groupCount src.length) (e := e.start t sync key)
    (f := Engine.zero.start t sync key) (by rw [Engine.k_start, Engine.k_start])
    (by rw [Engine.counter_start, Engine.counter_start]) src

/-- After a transform every register of the engine is zero (40_cipher_datapath.md R71). -/
@[simp] theorem Engine.transform_snd (t : SBox) (sync : Word × Word) (key : Key) (src : List Byte)
    (e : Engine) : (e.transform t sync key src).2 = Engine.zero := rfl

/-- With enough groups for the source, the loop's output is as long as the source. -/
theorem cryptGroups_length (t : SBox) (n : Nat) (e : Engine) (src : List Byte) (h : src.length ≤ 8 * n) :
    (cryptGroups t n e src).1.length = src.length := by
  induction n generalizing e src with
  | zero => simp only [cryptGroups, List.length_nil]; omega
  | succ n ih =>
    simp only [cryptGroups, List.length_append, combineGroup_length, List.length_take]
    rw [ih _ _ (by simp only [List.length_drop]; omega), List.length_drop]
    omega

/-- The groups of a source cover it. -/
theorem groupCount_covers (n : Nat) : n ≤ 8 * groupCount n := by unfold groupCount; omega

end Sys2Proof.Machine
end

