-- ==== Sys2Proof/Laws/Decode.lean ====
section
/-! SUPPORT. The laws of the encoding: a word and its six fields determine each other, and so do each operand and its
field. -/

namespace Sys2Proof

theorem ofNat_toNat_self {w : Nat} (f : BitVec w) : BitVec.ofNat w f.toNat = f := by simp
/-! ## Bit fields -/

theorem extract_append_low {w v : Nat} (x : BitVec w) (y : BitVec v) (s n : Nat) (h : s + n ≤ v) :
    (x ++ y).extractLsb' s n = y.extractLsb' s n := by
  ext i hi
  simp only [BitVec.getElem_extractLsb', BitVec.getLsbD_append]
  rw [if_pos (by omega)]

theorem extract_append_high {w v : Nat} (x : BitVec w) (y : BitVec v) (s n : Nat) (h : v ≤ s) :
    (x ++ y).extractLsb' s n = x.extractLsb' (s - v) n := by
  ext i hi
  simp only [BitVec.getElem_extractLsb', BitVec.getLsbD_append]
  rw [if_neg (by omega), show s + i - v = s - v + i by omega]

theorem extract_whole {w : Nat} (x : BitVec w) : x.extractLsb' 0 w = x := by
  ext i hi
  simp

/-- The fields of the word that has given fields are those fields. -/
theorem wordFields_fieldsWord (f : Fields) : wordFields (fieldsWord f) = f := by
  rcases f with ⟨op, a, b, c, d, low⟩
  simp only [wordFields, fieldsWord, Fields.mk.injEq]
  refine ⟨?_, ?_, ?_, ?_, ?_, ?_⟩
  · exact (extract_append_high _ low 24 8 (by omega)).trans ((extract_append_high _ d 16 8 (by omega)).trans ((extract_append_high _ c 12 8 (by omega)).trans ((extract_append_high _ b 8 8 (by omega)).trans ((extract_append_high _ a 4 8 (by omega)).trans (extract_whole op)))))
  · exact (extract_append_high _ low 20 4 (by omega)).trans ((extract_append_high _ d 12 4 (by omega)).trans ((extract_append_high _ c 8 4 (by omega)).trans ((extract_append_high _ b 4 4 (by omega)).trans ((extract_append_low _ a 0 4 (by omega)).trans (extract_whole a)))))
  · exact (extract_append_high _ low 16 4 (by omega)).trans ((extract_append_high _ d 8 4 (by omega)).trans ((extract_append_high _ c 4 4 (by omega)).trans ((extract_append_low _ b 0 4 (by omega)).trans (extract_whole b))))
  · exact (extract_append_high _ low 12 4 (by omega)).trans ((extract_append_high _ d 4 4 (by omega)).trans ((extract_append_low _ c 0 4 (by omega)).trans (extract_whole c)))
  · exact (extract_append_high _ low 8 4 (by omega)).trans ((extract_append_low _ d 0 4 (by omega)).trans (extract_whole d))
  · exact (extract_append_low _ low 0 8 (by omega)).trans (extract_whole low)

/-- Bits 19:16 of a word are the field `b` it was put together from. -/
theorem fieldsWord_b (f : Fields) : (fieldsWord f).extractLsb' 16 4 = f.b :=
  congrArg Fields.b (wordFields_fieldsWord f)

/-- Bits 7:0 of a word are the low field it was put together from. -/
theorem fieldsWord_low (f : Fields) : (fieldsWord f).extractLsb' 0 8 = f.low :=
  congrArg Fields.low (wordFields_fieldsWord f)

theorem append_extract {w : Nat} (x : BitVec w) (s n m : Nat)  :
    x.extractLsb' (s + m) n ++ x.extractLsb' s m = x.extractLsb' s (n + m) := by
  ext i hi
  simp only [BitVec.getElem_append, BitVec.getElem_extractLsb']
  split
  · rfl
  · rw [show s + m + (i - m) = s + i by omega]

/-- The word that has the fields of a word is that word. -/
theorem fieldsWord_wordFields (w : Word) : fieldsWord (wordFields w) = w := by
  simp only [wordFields, fieldsWord]
  have h1 := append_extract w 20 8 4
  have h2 := append_extract w 16 12 4
  have h3 := append_extract w 12 16 4
  have h4 := append_extract w 8 20 4
  have h5 := append_extract w 0 24 8
  simp only [Nat.reduceAdd] at h1 h2 h3 h4 h5
  rw [h1, h2, h3, h4, h5, extract_whole]


/-! ## Field values -/

theorem fieldReg?_regField (r : Reg) : fieldReg? (regField r) = some r := by
  revert r; decide

theorem regField_of_fieldReg? {f : Nibble} {r : Reg} (h : fieldReg? f = some r) : regField r = f := by
  unfold fieldReg? at h
  split at h
  · cases h; exact ofNat_toNat_self f
  · cases h

theorem fieldSlot?_slotField {p : Params} {sb : SlotIx} (h : slotLegal p sb = true) :
    fieldSlot? p (slotField sb) = some sb := by
  have ht : ∀ sb : SlotIx, (slotField sb).toNat = sb.val := by decide
  simp [fieldSlot?, ht, h]

theorem slotField_of_fieldSlot? {p : Params} {f : Nibble} {sb : SlotIx} (h : fieldSlot? p f = some sb) :
    slotField sb = f ∧ slotLegal p sb = true := by
  unfold fieldSlot? at h
  split at h
  · split at h
    · next hl => cases h; exact ⟨ofNat_toNat_self f, hl⟩
    · cases h
  · cases h

theorem fieldVault?_vaultField {p : Params} {v : VaultIx} (h : vaultLegal p v = true) :
    fieldVault? p (vaultField v) = some v := by
  have ht : ∀ v : VaultIx, (vaultField v).toNat = v.val := by decide
  simp [fieldVault?, ht, h]

theorem vaultField_of_fieldVault? {p : Params} {f : Nibble} {v : VaultIx} (h : fieldVault? p f = some v) :
    vaultField v = f ∧ vaultLegal p v = true := by
  unfold fieldVault? at h
  split at h
  · split at h
    · next hl => cases h; exact ⟨ofNat_toNat_self f, hl⟩
    · cases h
  · cases h

theorem fieldKeySrc?_keySrcField {p : Params} {ks : KeySrc} (h : keySrcLegal p ks = true) :
    fieldKeySrc? p (keySrcField ks) = some ks := by
  cases ks with
  | slot sb =>
    have h3 : ∀ sb : SlotIx, (keySrcField (.slot sb)).getLsbD 3 = false := by decide
    have hf : ∀ sb : SlotIx, 0#1 ++ (keySrcField (.slot sb)).extractLsb' 0 3 = slotField sb := by decide
    rw [fieldKeySrc?, h3 sb, if_neg (by decide), hf sb]
    exact congrArg (Option.map KeySrc.slot) (fieldSlot?_slotField h)
  | vault v =>
    have h3 : ∀ v : VaultIx, (keySrcField (.vault v)).getLsbD 3 = true := by decide
    have hf : ∀ v : VaultIx, 0#1 ++ (keySrcField (.vault v)).extractLsb' 0 3 = vaultField v := by decide
    rw [fieldKeySrc?, h3 v, if_pos rfl, hf v]
    exact congrArg (Option.map KeySrc.vault) (fieldVault?_vaultField h)

theorem keySrcField_of_fieldKeySrc? {p : Params} {f : Nibble} {ks : KeySrc}
    (h : fieldKeySrc? p f = some ks) : keySrcField ks = f ∧ keySrcLegal p ks = true := by
  unfold fieldKeySrc? at h
  split at h
  · next h3 =>
    obtain ⟨v, hv, rfl⟩ := Option.map_eq_some_iff.mp h
    obtain ⟨hf, hl⟩ := vaultField_of_fieldVault? hv
    refine ⟨?_, hl⟩
    have : ∀ (f : Nibble) (v : VaultIx), f.getLsbD 3 = true → vaultField v = 0#1 ++ f.extractLsb' 0 3 →
        keySrcField (.vault v) = f := by decide
    exact this f v h3 hf
  · next h3 =>
    obtain ⟨sb, hv, rfl⟩ := Option.map_eq_some_iff.mp h
    obtain ⟨hf, hl⟩ := slotField_of_fieldSlot? hv
    refine ⟨?_, hl⟩
    have : ∀ (f : Nibble) (sb : SlotIx), ¬ f.getLsbD 3 = true → slotField sb = 0#1 ++ f.extractLsb' 0 3 →
        keySrcField (.slot sb) = f := by decide
    exact this f sb h3 hf

theorem csrOf?_csrNumber (c : Csr) : csrOf? (csrNumber c) = some c := by cases c <;> decide

theorem csrNumber_of_csrOf? {n : BitVec 16} {c : Csr} (h : csrOf? n = some c) : csrNumber c = n := by
  unfold csrOf? at h
  repeat' split at h
  all_goals first | (cases h; done) | (cases h; subst_vars; rfl)

theorem opcodeOf?_opcodeByte (o : Opcode) : opcodeOf? (opcodeByte o) = some o := by cases o <;> decide

theorem opcodeByte_of_opcodeOf? {b : Byte} {o : Opcode} (h : opcodeOf? b = some o) : opcodeByte o = b := by
  simpa using List.find?_some h

/-- The immediate of format I, cut into its fields and put together again. -/
theorem fieldsImm16_formatI (o : Opcode) (a : Nibble) (imm : BitVec 16) :
    fieldsImm16 (formatI o a imm) = imm := by
  have h1 := append_extract imm 8 4 4
  have h2 := append_extract imm 0 8 8
  simp only [Nat.reduceAdd] at h1 h2
  simp only [fieldsImm16, formatI]
  rw [h1, h2, extract_whole]

/-- Fields whose immediate is `imm` are what format I makes of `imm`. -/
theorem formatI_of_fieldsImm16 (f : Fields) :
    (fieldsImm16 f).extractLsb' 12 4 = f.c ∧ (fieldsImm16 f).extractLsb' 8 4 = f.d ∧
      (fieldsImm16 f).extractLsb' 0 8 = f.low := by
  rcases f with ⟨op, a, b, c, d, low⟩
  refine ⟨?_, ?_, ?_⟩
  · exact (extract_append_high _ low 12 4 (by omega)).trans
      ((extract_append_high _ d 4 4 (by omega)).trans (extract_whole c))
  · exact (extract_append_high _ low 8 4 (by omega)).trans
      ((extract_append_low _ d 0 4 (by omega)).trans (extract_whole d))
  · exact (extract_append_low _ low 0 8 (by omega)).trans (extract_whole low)

/-- The byte immediate of `STB` and `SBREL`: bits 15:8 are zero, bits 7:0 the byte. -/
theorem formatI_byte (imm : Byte) :
    (0#8 ++ imm : BitVec 16).extractLsb' 12 4 = 0#4 ∧ (0#8 ++ imm : BitVec 16).extractLsb' 8 4 = 0#4 ∧
      (0#8 ++ imm : BitVec 16).extractLsb' 0 8 = imm := by
  refine ⟨?_, ?_, ?_⟩
  · exact (extract_append_high (0#8) imm 12 4 (by omega)).trans (by decide)
  · exact (extract_append_high (0#8) imm 8 4 (by omega)).trans (by decide)
  · exact (extract_append_low (0#8) imm 0 8 (by omega)).trans (extract_whole imm)

end Sys2Proof
end

