-- ==== Sys2Proof/Laws/Exec.lean ====
section
/-! SUPPORT. What each command can do, said once: if `exec` answers a next state, one of the listed cases holds. Every
case is an error with no other effect, or the command's one success. -/

namespace Sys2Proof.Machine

theorem exec_nop_cases {s t : State} (h : exec .nop s = .next t) : t = s.complete .success 0#32 :=
  respond_eq_next.mp h

theorem exec_li_cases {rd : Reg} {imm : BitVec 16} {s t : State} (h : exec (.li rd imm) s = .next t) :
    t = (s.setReg rd (imm.setWidth 32)).complete .success 0#32 := respond_eq_next.mp h

theorem exec_lih_cases {rd : Reg} {imm : BitVec 16} {s t : State} (h : exec (.lih rd imm) s = .next t) :
    t = (s.setReg rd (imm ++ (s.reg rd).extractLsb' 0 16)).complete .success 0#32 := respond_eq_next.mp h

theorem exec_getr_cases {rs : Reg} {s t : State} (h : exec (.getr rs) s = .next t) :
    t = s.complete .success (s.reg rs) := respond_eq_next.mp h

theorem exec_rdc_cases {c : Csr} {s t : State} (h : exec (.rdc c) s = .next t) :
    t = s.complete .success (s.csr c) := respond_eq_next.mp h

theorem exec_stb_cases {ra : Reg} {imm : Byte} {s t : State} (h : exec (.stb ra imm) s = .next t) :
    (¬ s.InRange (s.reg ra) 1 ∧ t = s.complete .addressError 0#32) ∨
    (s.InRange (s.reg ra) 1 ∧
      t = ((s.storeBytes (s.reg ra).toNat [imm]).bumpReg ra).complete .success 0#32) := by
  simp only [exec, execStb] at h
  split at h
  · next c => exact .inr ⟨c, respond_eq_next.mp h⟩
  · next c => exact .inl ⟨c, raise_eq_next.mp h⟩

theorem exec_ldb_cases {ra : Reg} {s t : State} (h : exec (.ldb ra) s = .next t) :
    (¬ s.InRange (s.reg ra) 1 ∧ t = s.complete .addressError 0#32) ∨
    (s.InRange (s.reg ra) 1 ∧
      t = (s.bumpReg ra).complete .success ((s.xmemByte (s.reg ra).toNat).setWidth 32)) := by
  simp only [exec, execLdb] at h
  split at h
  · next c => exact .inr ⟨c, respond_eq_next.mp h⟩
  · next c => exact .inl ⟨c, raise_eq_next.mp h⟩

theorem exec_stw_cases {ra rb : Reg} {s t : State} (h : exec (.stw ra rb) s = .next t) :
    (¬ s.InRange (s.reg ra) 4 ∧ t = s.complete .addressError 0#32) ∨
    (s.InRange (s.reg ra) 4 ∧
      t = (s.storeWord (s.reg ra).toNat (s.reg rb)).complete .success 0#32) := by
  simp only [exec, execStw] at h
  split at h
  · next c => exact .inr ⟨c, respond_eq_next.mp h⟩
  · next c => exact .inl ⟨c, raise_eq_next.mp h⟩

theorem exec_ldw_cases {rd ra : Reg} {s t : State} (h : exec (.ldw rd ra) s = .next t) :
    (¬ s.InRange (s.reg ra) 4 ∧ t = s.complete .addressError 0#32) ∨
    (s.InRange (s.reg ra) 4 ∧
      t = (s.setReg rd (s.loadWord (s.reg ra).toNat)).complete .success
        (s.loadWord (s.reg ra).toNat)) := by
  simp only [exec, execLdw] at h
  split at h
  · next c => exact .inr ⟨c, respond_eq_next.mp h⟩
  · next c => exact .inl ⟨c, raise_eq_next.mp h⟩

theorem exec_cfgsbox_cases {ra rn : Reg} {s t : State} (h : exec (.cfgsbox ra rn) s = .next t) :
    ((s.reg rn).toNat < 128 ∧ t = s.complete .configurationError 0#32) ∨
    (128 ≤ (s.reg rn).toNat ∧ ¬ s.InRange (s.reg ra) 128 ∧ t = s.complete .addressError 0#32) ∨
    (128 ≤ (s.reg rn).toNat ∧ s.InRange (s.reg ra) 128 ∧ s.tableMalformed (s.reg ra).toNat = true ∧
      t = s.complete .configurationError 0#32) ∨
    (128 ≤ (s.reg rn).toNat ∧ s.InRange (s.reg ra) 128 ∧ s.tableMalformed (s.reg ra).toNat = false ∧
      t = State.complete { s with sbox := s.tableAt (s.reg ra).toNat } .success 0#32) := by
  simp only [exec, execCfgsbox, Config.tableBytes] at h
  split at h
  · next c => exact .inl ⟨c, raise_eq_next.mp h⟩
  · next c =>
    have c' : 128 ≤ (s.reg rn).toNat := Nat.le_of_not_lt c
    split at h
    · next d => exact .inr (.inl ⟨c', d, raise_eq_next.mp h⟩)
    · next d =>
      have d' := Decidable.of_not_not d
      split at h
      · next e => exact .inr (.inr (.inl ⟨c', d', e, raise_eq_next.mp h⟩))
      · next e =>
        exact .inr (.inr (.inr ⟨c', d', Bool.eq_false_iff.mpr e, respond_eq_next.mp h⟩))

theorem exec_cfgsync_cases {ra rb : Reg} {s t : State} (h : exec (.cfgsync ra rb) s = .next t) :
    t = State.complete { s with sync0 := s.reg ra, sync1 := s.reg rb } .success 0#32 :=
  respond_eq_next.mp h

theorem exec_xform_cases {rd rs rn : Reg} {ks : KeySrc} {s t : State}
    (h : exec (.xform rd rs rn ks) s = .next t) :
    (∃ e, s.keyOf ks = .error e ∧ t = s.complete e 0#32) ∨
    (∃ key, s.keyOf ks = .ok key ∧
      (((¬ s.InRange (s.reg rs) (s.reg rn).toNat ∨ ¬ s.InRange (s.reg rd) (s.reg rn).toNat) ∧
          t = s.complete .addressError 0#32) ∨
        (s.InRange (s.reg rs) (s.reg rn).toNat ∧ s.InRange (s.reg rd) (s.reg rn).toNat ∧
          Overlap (s.reg rd) (s.reg rs) (s.reg rn).toNat ∧ t = s.complete .addressError 0#32) ∨
        (s.InRange (s.reg rs) (s.reg rn).toNat ∧ s.InRange (s.reg rd) (s.reg rn).toNat ∧
          ¬ Overlap (s.reg rd) (s.reg rs) (s.reg rn).toNat ∧
          t = (s.transformXmem key (s.reg rd).toNat (s.reg rs).toNat (s.reg rn).toNat).complete
            .success 0#32))) := by
  simp only [exec, execXform] at h
  split at h
  · next e c => exact .inl ⟨e, c, raise_eq_next.mp h⟩
  · next key c =>
    refine .inr ⟨key, c, ?_⟩
    split at h
    · next d => exact .inl ⟨d, raise_eq_next.mp h⟩
    · next d =>
      have d1 := Decidable.of_not_not (fun k => d (.inl k))
      have d2 := Decidable.of_not_not (fun k => d (.inr k))
      split at h
      · next e => exact .inr (.inl ⟨d1, d2, e, raise_eq_next.mp h⟩)
      · next e => exact .inr (.inr ⟨d1, d2, e, respond_eq_next.mp h⟩)

theorem exec_sbld_cases {sb : SlotIx} {ra rn : Reg} {s t : State}
    (h : exec (.sbld sb ra rn) s = .next t) :
    (s.slot? sb = none ∧ t = s.complete .illegalCommand 0#32) ∨
    (∃ sl, s.slot? sb = some sl ∧
      ((sl.valid = true ∧ t = s.complete .stateError 0#32) ∨
        (sl.valid = false ∧ (s.reg rn).toNat > s.params.sbCap ∧ t = s.complete .lengthError 0#32) ∨
        (sl.valid = false ∧ (s.reg rn).toNat ≤ s.params.sbCap ∧
          ¬ s.InRange (s.reg ra) (s.reg rn).toNat ∧ t = s.complete .addressError 0#32) ∨
        (sl.valid = false ∧ (s.reg rn).toNat ≤ s.params.sbCap ∧
          s.InRange (s.reg ra) (s.reg rn).toNat ∧
          t = ((s.setSlot sb (Slot.live s.params.sbCap
              (s.xmemBytes (s.reg ra).toNat (s.reg rn).toNat))).storeBytes
            (s.reg ra).toNat (List.replicate (s.reg rn).toNat 0#8)).complete .success 0#32))) := by
  simp only [exec, execSbld] at h
  split at h
  · next c => exact .inl ⟨c, raise_eq_next.mp h⟩
  · next sl c =>
    refine .inr ⟨sl, c, ?_⟩
    split at h
    · next d => exact .inl ⟨d, raise_eq_next.mp h⟩
    · next d =>
      have d' := Bool.eq_false_iff.mpr d
      split at h
      · next e => exact .inr (.inl ⟨d', e, raise_eq_next.mp h⟩)
      · next e =>
        have e' := Nat.le_of_not_lt e
        split at h
        · next f => exact .inr (.inr (.inl ⟨d', e', f, raise_eq_next.mp h⟩))
        · next f =>
          exact .inr (.inr (.inr ⟨d', e', Decidable.of_not_not f, respond_eq_next.mp h⟩))

theorem exec_sbrel_cases {sb : SlotIx} {imm : Byte} {s t : State}
    (h : exec (.sbrel sb imm) s = .next t) :
    (s.slot? sb = none ∧ t = s.complete .illegalCommand 0#32) ∨
    (∃ sl, s.slot? sb = some sl ∧
      t = (s.setSlot sb (Slot.free s.params.sbCap imm)).complete .success 0#32) := by
  simp only [exec, execSbrel] at h
  split at h
  · next c => exact .inl ⟨c, raise_eq_next.mp h⟩
  · next sl c => exact .inr ⟨sl, c, respond_eq_next.mp h⟩

theorem exec_sbrand_cases {sb : SlotIx} {s t : State} (h : exec (.sbrand sb) s = .next t) :
    (s.slot? sb = none ∧ t = s.complete .illegalCommand 0#32) ∨
    (∃ sl, s.slot? sb = some sl ∧
      ((sl.valid = false ∧ t = s.complete .stateError 0#32) ∨
        (sl.valid = true ∧
          t = ((s.setSlot sb (sl.refill (s.rngBytes sl.len))).rngAdvance sl.len).complete
            .success 0#32))) := by
  simp only [exec, execSbrand] at h
  split at h
  · next c => exact .inl ⟨c, raise_eq_next.mp h⟩
  · next sl c =>
    refine .inr ⟨sl, c, ?_⟩
    split at h
    · next d => exact .inl ⟨d, raise_eq_next.mp h⟩
    · next d => exact .inr ⟨Bool.of_not_eq_false d, respond_eq_next.mp h⟩

theorem exec_sbst_cases {sb : SlotIx} {ra : Reg} {s t : State} (h : exec (.sbst sb ra) s = .next t) :
    (s.slot? sb = none ∧ t = s.complete .illegalCommand 0#32) ∨
    (∃ sl, s.slot? sb = some sl ∧
      ((sl.valid = false ∧ t = s.complete .stateError 0#32) ∨
        (sl.valid = true ∧ ¬ s.InRange (s.reg ra) sl.len ∧ t = s.complete .addressError 0#32) ∨
        (sl.valid = true ∧ s.InRange (s.reg ra) sl.len ∧
          t = (s.storeBytes (s.reg ra).toNat sl.content).complete .success
            (BitVec.ofNat 32 sl.len)))) := by
  simp only [exec, execSbst] at h
  split at h
  · next c => exact .inl ⟨c, raise_eq_next.mp h⟩
  · next sl c =>
    refine .inr ⟨sl, c, ?_⟩
    split at h
    · next d => exact .inl ⟨d, raise_eq_next.mp h⟩
    · next d =>
      have d' := Bool.of_not_eq_false d
      split at h
      · next e => exact .inr (.inl ⟨d', e, raise_eq_next.mp h⟩)
      · next e => exact .inr (.inr ⟨d', Decidable.of_not_not e, respond_eq_next.mp h⟩)

theorem exec_sblen_cases {sb : SlotIx} {s t : State} (h : exec (.sblen sb) s = .next t) :
    (s.slot? sb = none ∧ t = s.complete .illegalCommand 0#32) ∨
    (∃ sl, s.slot? sb = some sl ∧
      ((sl.valid = false ∧ t = s.complete .stateError 0#32) ∨
        (sl.valid = true ∧ t = s.complete .success (BitVec.ofNat 32 sl.len)))) := by
  simp only [exec, execSblen] at h
  split at h
  · next c => exact .inl ⟨c, raise_eq_next.mp h⟩
  · next sl c =>
    refine .inr ⟨sl, c, ?_⟩
    split at h
    · next d => exact .inl ⟨d, raise_eq_next.mp h⟩
    · next d => exact .inr ⟨Bool.of_not_eq_false d, respond_eq_next.mp h⟩

theorem exec_vnew_cases {v : VaultIx} {sb : SlotIx} {s t : State} (h : exec (.vnew v sb) s = .next t) :
    ((s.vault? v = none ∨ s.slot? sb = none) ∧ t = s.complete .illegalCommand 0#32) ∨
    (∃ x sl, s.vault? v = some x ∧ s.slot? sb = some sl ∧
      (((x.valid = true ∨ sl.valid = false) ∧ t = s.complete .stateError 0#32) ∨
        (x.valid = false ∧ sl.valid = true ∧ sl.len > 32 ∧ t = s.complete .lengthError 0#32) ∨
        (x.valid = false ∧ sl.valid = true ∧ sl.len ≤ 32 ∧
          t = (((s.setSlot sb (Slot.free s.params.sbCap 0#8)).setVault v
              (Vault.lock { x with valid := true, guard := false, data := sl.paddedKey }
                s.rngPad)).rngAdvance 32).complete .success 0#32))) := by
  simp only [exec, execVnew, Config.keySize] at h
  split at h
  · next x sl cx cs =>
    refine .inr ⟨x, sl, cx, cs, ?_⟩
    split at h
    · next d => exact .inl ⟨.inl d, raise_eq_next.mp h⟩
    · next d =>
      have d' := Bool.eq_false_iff.mpr d
      split at h
      · next e => exact .inl ⟨.inr e, raise_eq_next.mp h⟩
      · next e =>
        have e' := Bool.of_not_eq_false e
        split at h
        · next f => exact .inr (.inl ⟨d', e', f, raise_eq_next.mp h⟩)
        · next f => exact .inr (.inr ⟨d', e', Nat.le_of_not_lt f, respond_eq_next.mp h⟩)
  · next c =>
    refine .inl ⟨?_, raise_eq_next.mp h⟩
    rcases hv : s.vault? v with _ | x
    · exact .inl rfl
    · rcases hs : s.slot? sb with _ | sl
      · exact .inr rfl
      · exact absurd hs (by simpa using c x sl hv)

theorem exec_gacq_cases {v : VaultIx} {s t : State} (h : exec (.gacq v) s = .next t) :
    (s.vault? v = none ∧ t = s.complete .illegalCommand 0#32) ∨
    (∃ x, s.vault? v = some x ∧
      (((x.valid = false ∨ x.guard = true) ∧ t = s.complete .stateError 0#32) ∨
        (x.valid = true ∧ x.guard = false ∧
          t = (s.setVault v { x.unlock with guard := true }).complete .success 0#32))) := by
  simp only [exec, execGacq] at h
  split at h
  · next c => exact .inl ⟨c, raise_eq_next.mp h⟩
  · next x c =>
    refine .inr ⟨x, c, ?_⟩
    split at h
    · next d => exact .inl ⟨.inl d, raise_eq_next.mp h⟩
    · next d =>
      split at h
      · next e => exact .inl ⟨.inr e, raise_eq_next.mp h⟩
      · next e =>
        exact .inr ⟨Bool.of_not_eq_false d, Bool.eq_false_iff.mpr e, respond_eq_next.mp h⟩

theorem exec_grel_cases {v : VaultIx} {s t : State} (h : exec (.grel v) s = .next t) :
    (s.vault? v = none ∧ t = s.complete .illegalCommand 0#32) ∨
    (∃ x, s.vault? v = some x ∧
      (((x.valid = false ∨ x.guard = false) ∧ t = s.complete .stateError 0#32) ∨
        (x.valid = true ∧ x.guard = true ∧
          t = ((s.setVault v { x.lock s.rngPad with guard := false }).rngAdvance 32).complete
            .success 0#32))) := by
  simp only [exec, execGrel, Config.keySize] at h
  split at h
  · next c => exact .inl ⟨c, raise_eq_next.mp h⟩
  · next x c =>
    refine .inr ⟨x, c, ?_⟩
    split at h
    · next d => exact .inl ⟨.inl d, raise_eq_next.mp h⟩
    · next d =>
      split at h
      · next e => exact .inl ⟨.inr e, raise_eq_next.mp h⟩
      · next e =>
        exact .inr ⟨Bool.of_not_eq_false d, Bool.of_not_eq_false e, respond_eq_next.mp h⟩

theorem exec_vrd_cases {v : VaultIx} {ra : Reg} {s t : State} (h : exec (.vrd v ra) s = .next t) :
    (s.vault? v = none ∧ t = s.complete .illegalCommand 0#32) ∨
    (∃ x, s.vault? v = some x ∧
      (((x.valid = false ∨ x.guard = false) ∧ t = s.complete .stateError 0#32) ∨
        (x.valid = true ∧ x.guard = true ∧ ¬ s.InRange (s.reg ra) 32 ∧
          t = s.complete .addressError 0#32) ∨
        (x.valid = true ∧ x.guard = true ∧ s.InRange (s.reg ra) 32 ∧
          t = (s.storeBytes (s.reg ra).toNat x.data.toList).complete .success 0#32))) := by
  simp only [exec, execVrd, Config.keySize] at h
  split at h
  · next c => exact .inl ⟨c, raise_eq_next.mp h⟩
  · next x c =>
    refine .inr ⟨x, c, ?_⟩
    split at h
    · next d => exact .inl ⟨d, raise_eq_next.mp h⟩
    · next d =>
      have d1 := Bool.of_not_eq_false (fun k => d (.inl k))
      have d2 := Bool.of_not_eq_false (fun k => d (.inr k))
      split at h
      · next e => exact .inr (.inl ⟨d1, d2, e, raise_eq_next.mp h⟩)
      · next e => exact .inr (.inr ⟨d1, d2, Decidable.of_not_not e, respond_eq_next.mp h⟩)

theorem exec_vdel_cases {v : VaultIx} {s t : State} (h : exec (.vdel v) s = .next t) :
    (s.vault? v = none ∧ t = s.complete .illegalCommand 0#32) ∨
    (∃ x, s.vault? v = some x ∧
      ((x.guard = true ∧ t = s.complete .stateError 0#32) ∨
        (x.guard = false ∧
          t = (s.setVault v { x with valid := false, data := Key.zero, mask := Key.zero }).complete
            .success 0#32))) := by
  simp only [exec, execVdel] at h
  split at h
  · next c => exact .inl ⟨c, raise_eq_next.mp h⟩
  · next x c =>
    refine .inr ⟨x, c, ?_⟩
    split at h
    · next d => exact .inl ⟨d, raise_eq_next.mp h⟩
    · next d => exact .inr ⟨Bool.eq_false_iff.mpr d, respond_eq_next.mp h⟩

end Sys2Proof.Machine
end

