-- ==== Sys2Proof/Laws/PerInstr.lean ====
section
/-! SUPPORT. The statements made once per command: family Opcode, the opcode of its word (30_encoding.md R42, R51). -/

namespace Sys2Proof

/-- Bits 31:24 of a command's word are the code of its own opcode (30_encoding.md R42, R51). -/
def Laws.Opcode.Statement (i : Instr) : Prop := (encode i).extractLsb' 24 8 = opcodeByte (instrOpcode i)

/-- Bits 31:24 of a word are the opcode field it was put together from. -/
theorem fieldsWord_op (f : Fields) : (fieldsWord f).extractLsb' 24 8 = f.op :=
  congrArg Fields.op (wordFields_fieldsWord f)

theorem Laws.Opcode.nop :
    Laws.Opcode.Statement (.nop) := fieldsWord_op _

theorem Laws.Opcode.li (rd : Reg) (imm16 : BitVec 16) :
    Laws.Opcode.Statement (.li rd imm16) := fieldsWord_op _

theorem Laws.Opcode.lih (rd : Reg) (imm16 : BitVec 16) :
    Laws.Opcode.Statement (.lih rd imm16) := fieldsWord_op _

theorem Laws.Opcode.getr (rs : Reg) :
    Laws.Opcode.Statement (.getr rs) := fieldsWord_op _

theorem Laws.Opcode.rdc (csr : Csr) :
    Laws.Opcode.Statement (.rdc csr) := fieldsWord_op _

theorem Laws.Opcode.stb (ra : Reg) (imm8 : Byte) :
    Laws.Opcode.Statement (.stb ra imm8) := fieldsWord_op _

theorem Laws.Opcode.ldb (ra : Reg) :
    Laws.Opcode.Statement (.ldb ra) := fieldsWord_op _

theorem Laws.Opcode.stw (ra rb : Reg) :
    Laws.Opcode.Statement (.stw ra rb) := fieldsWord_op _

theorem Laws.Opcode.ldw (rd ra : Reg) :
    Laws.Opcode.Statement (.ldw rd ra) := fieldsWord_op _

theorem Laws.Opcode.cfgsbox (ra rn : Reg) :
    Laws.Opcode.Statement (.cfgsbox ra rn) := fieldsWord_op _

theorem Laws.Opcode.cfgsync (ra rb : Reg) :
    Laws.Opcode.Statement (.cfgsync ra rb) := fieldsWord_op _

theorem Laws.Opcode.xform (rd rs rn : Reg) (ks : KeySrc) :
    Laws.Opcode.Statement (.xform rd rs rn ks) := fieldsWord_op _

theorem Laws.Opcode.sbld (sb : SlotIx) (ra rn : Reg) :
    Laws.Opcode.Statement (.sbld sb ra rn) := fieldsWord_op _

theorem Laws.Opcode.sbrel (sb : SlotIx) (imm8 : Byte) :
    Laws.Opcode.Statement (.sbrel sb imm8) := fieldsWord_op _

theorem Laws.Opcode.sbrand (sb : SlotIx) :
    Laws.Opcode.Statement (.sbrand sb) := fieldsWord_op _

theorem Laws.Opcode.sbst (sb : SlotIx) (ra : Reg) :
    Laws.Opcode.Statement (.sbst sb ra) := fieldsWord_op _

theorem Laws.Opcode.sblen (sb : SlotIx) :
    Laws.Opcode.Statement (.sblen sb) := fieldsWord_op _

theorem Laws.Opcode.vnew (v : VaultIx) (sb : SlotIx) :
    Laws.Opcode.Statement (.vnew v sb) := fieldsWord_op _

theorem Laws.Opcode.gacq (v : VaultIx) :
    Laws.Opcode.Statement (.gacq v) := fieldsWord_op _

theorem Laws.Opcode.grel (v : VaultIx) :
    Laws.Opcode.Statement (.grel v) := fieldsWord_op _

theorem Laws.Opcode.vrd (v : VaultIx) (ra : Reg) :
    Laws.Opcode.Statement (.vrd v ra) := fieldsWord_op _

theorem Laws.Opcode.vdel (v : VaultIx) :
    Laws.Opcode.Statement (.vdel v) := fieldsWord_op _

end Sys2Proof
end

