-- ==== Sys2Proof/Tests/Slice0.lean ====
section
/-! SUPPORT. The model's own tests, each about one word or one step, with expected results from spec/95_test_vectors.md
and spec/96_command_vectors.md (the row's name stands beside each), and a witness for the hypotheses of every
statement that has some. -/

namespace Sys2Proof.Tests

open Sys2Proof Sys2Proof.Machine

set_option maxRecDepth 8000

/-! ## Helpers -/

/-- A next state with the given property. -/
def nextSat (o : Result) (p : State → Bool) : Bool :=
  match o with
  | .next t => p t
  | .fault _ => false
  | .refused _ => false

theorem nextSat_iff {o : Result} {p : State → Bool} :
    nextSat o p = true ↔ ∃ t, o = .next t ∧ p t = true := by
  cases o <;> simp [nextSat]

/-- One step on a state to which the host presents a word ends in a state with the property. -/
def stepSat (s : State) (w : Nat) (p : State → Bool) : Bool := nextSat (step (s.withFetchWord 32 w)) p

/-- The response and `LASTERR` are the given ones. -/
def said (e : ErrCode) (v : Word) (t : State) : Bool :=
  t.response == some { err := e, val := v } && t.lastErr == e

/-- The reset state with registers set. -/
def withRegs (rs : List (Reg × Word)) : State := rs.foldl (fun s r => s.setReg r.1 r.2) State.reset

/-- The substitution set T (95 section 2). -/
def tableT : SBox := #v[
  #v[4, 10, 9, 2, 13, 8, 0, 14, 6, 11, 1, 12, 7, 15, 5, 3],
  #v[14, 11, 4, 12, 6, 13, 15, 10, 2, 3, 8, 1, 0, 7, 5, 9],
  #v[5, 8, 1, 13, 10, 3, 4, 2, 14, 15, 12, 7, 6, 0, 9, 11],
  #v[7, 13, 10, 1, 0, 8, 9, 15, 14, 4, 6, 12, 11, 2, 5, 3],
  #v[6, 12, 7, 1, 5, 15, 13, 8, 4, 10, 9, 14, 0, 3, 11, 2],
  #v[4, 11, 10, 0, 7, 2, 1, 13, 3, 6, 8, 5, 9, 12, 15, 14],
  #v[13, 11, 4, 1, 3, 15, 5, 9, 0, 10, 14, 7, 6, 8, 2, 12],
  #v[1, 15, 13, 0, 5, 7, 10, 4, 9, 2, 3, 14, 6, 11, 8, 12]]

/-- The identity table (95 section 2). -/
def tableId : SBox := Vector.ofFn fun _ => Vector.ofFn fun e => BitVec.ofFin e

/-- The 128-byte source of a table, group-major (95 section 2). -/
def tableSource (t : SBox) : List Byte :=
  (List.range 8).flatMap fun g => (List.range 16).map fun n =>
    ((t[g]?.bind fun r => r[n]?).getD 0#4).setWidth 8

/-- `key1`: 01 followed by 31 zero bytes (95 section 4). -/
def key1 : List Byte := 1#8 :: List.replicate 31 0#8

def key1Vec : Key := Key.zero.set 0 1#8

/-- The 17-byte string of 95 section 5. -/
def pt17 : List Byte :=
  [0x48#8, 0x65#8, 0x6C#8, 0x6C#8, 0x6F#8, 0x2C#8, 0x20#8, 0x47#8, 0x4F#8, 0x53#8, 0x54#8, 0x20#8, 0x32#8, 0x38#8,
    0x31#8, 0x34#8, 0x37#8]

/-- Its ciphertext under table T, `key1`, the default sync vector (95 section 5). -/
def ct17 : List Byte :=
  [0x01#8, 0x6D#8, 0x43#8, 0x27#8, 0xE4#8, 0x53#8, 0x8F#8, 0xF7#8, 0xE0#8, 0x49#8, 0xAA#8, 0x6D#8, 0x34#8, 0xC5#8,
    0x56#8, 0x11#8, 0xE9#8]

/-- `n` bytes counting up from a first one: the pads of 96 section 9. -/
def upFrom (first n : Nat) : List Byte := (List.range n).map fun i => BitVec.ofNat 8 (first + i)

def upFromKey (first : Nat) : Key := Vector.ofFn fun i => BitVec.ofNat 8 (first + i.val)

/-- A state with slot `b` live and holding bytes. -/
def withSlot (s : State) (b : SlotIx) (vs : List Byte) : State := s.setSlot b (Slot.live 64 vs)

/-- The vault of row V1: `key1` locked under the pad 20..3F. -/
def lockedVault : Vault :=
  { valid := true, guard := false, data := keyXor key1Vec (upFromKey 0x20), mask := upFromKey 0x20 }

/-- The vault of row V8: the same, unlocked. -/
def openVault : Vault := { valid := true, guard := true, data := key1Vec, mask := upFromKey 0x20 }

/-- The start of row C10: table T, `key1` in slot 0, the 17 bytes at 0x200, registers 1, 2, 3. -/
def c10 (x1 x2 x3 : Word) : State :=
  (withSlot (withRegs [(1, x1), (2, x2), (3, x3)]) 0 key1).storeBytes 0x200 pt17
    |> fun s => { s with sbox := tableT }

/-! ## Well-formedness: one ill-formed term for each check, refused -/

theorem test_wellFormed_slot :
    (Instr.sbld 4 0 1).wellFormed Params.default = false ∧ (Instr.sbrel 4 0#8).wellFormed Params.default = false ∧
    (Instr.sbrand 4).wellFormed Params.default = false ∧ (Instr.sbst 4 0).wellFormed Params.default = false ∧
    (Instr.sblen 4).wellFormed Params.default = false ∧ (Instr.sblen 3).wellFormed Params.default = true := by decide

theorem test_wellFormed_vault :
    (Instr.gacq 2).wellFormed Params.default = false ∧ (Instr.grel 2).wellFormed Params.default = false ∧
    (Instr.vrd 2 0).wellFormed Params.default = false ∧ (Instr.vdel 2).wellFormed Params.default = false ∧
    (Instr.vnew 2 0).wellFormed Params.default = false ∧ (Instr.vnew 0 4).wellFormed Params.default = false ∧
    (Instr.vnew 1 3).wellFormed Params.default = true := by decide

theorem test_wellFormed_keySource :
    (Instr.xform 0 1 2 (.slot 4)).wellFormed Params.default = false ∧
    (Instr.xform 0 1 2 (.vault 2)).wellFormed Params.default = false ∧
    (Instr.xform 0 1 2 (.vault 1)).wellFormed Params.default = true := by decide

/-! ## Decoding: the words of 30_encoding.md R55 -/

theorem test_decode_host :
    decodeTableWord 32 0x00000000 = some .nop ∧ decodeTableWord 32 0x01000100 = some (.li 0 0x100#16) ∧
    decodeTableWord 32 0x023040FD = some (.lih 3 0x40FD#16) ∧ decodeTableWord 32 0x03500000 = some (.getr 5) ∧
    decodeTableWord 32 0x04000001 = some (.rdc .status) ∧ decodeTableWord 32 0x08000048 = some (.stb 0 0x48#8) ∧
    decodeTableWord 32 0x09200000 = some (.ldb 2) ∧ decodeTableWord 32 0x0A140000 = some (.stw 1 4) ∧
    decodeTableWord 32 0x0B410000 = some (.ldw 4 1) := by decide

theorem test_decode_cipher :
    decodeTableWord 32 0x10010000 = some (.cfgsbox 0 1) ∧ decodeTableWord 32 0x11340000 = some (.cfgsync 3 4) ∧
    decodeTableWord 32 0x12213000 = some (.xform 2 1 3 (.slot 0)) ∧
    decodeTableWord 32 0x12223900 = some (.xform 2 2 3 (.vault 1)) := by decide

theorem test_decode_secureBuffer :
    decodeTableWord 32 0x20001000 = some (.sbld 0 0 1) ∧ decodeTableWord 32 0x212000A5 = some (.sbrel 2 0xA5#8) ∧
    decodeTableWord 32 0x22100000 = some (.sbrand 1) ∧ decodeTableWord 32 0x23160000 = some (.sbst 1 6) ∧
    decodeTableWord 32 0x24300000 = some (.sblen 3) := by decide

theorem test_decode_vault :
    decodeTableWord 32 0x30000000 = some (.vnew 0 0) ∧ decodeTableWord 32 0x31100000 = some (.gacq 1) ∧
    decodeTableWord 32 0x32100000 = some (.grel 1) ∧ decodeTableWord 32 0x33020000 = some (.vrd 0 2) ∧
    decodeTableWord 32 0x34100000 = some (.vdel 1) := by decide

/-- Rows I1 to I16 and I17 to I29: none of them decodes. -/
theorem test_decode_illegal :
    ([0x00000001, 0x01800000, 0x01010000, 0x03000001, 0x03001000, 0x04000006, 0x04100000, 0x08000100, 0x0A080000,
      0x05000000, 0x0C000000, 0x13000000, 0x25000000, 0x35000000, 0xFF000000, 0xFFFFFFFF, 0x12213400, 0x12213A00,
      0x12213001, 0x20400000, 0x20000100, 0x21400000, 0x21000100, 0x24010000, 0x30200000, 0x30040000, 0x31200000,
      0x33080000, 0x34000010].all fun w => (decodeTableWord 32 w).isNone) = true := by decide

/-- Row I1: the answer to an illegal word. -/
theorem test_illegal_word : stepSat State.reset 0x00000001 (said .illegalCommand 0#32) = true := by decide

/-- The assembler lines of 30_encoding.md R55. -/
theorem test_asm :
    asmText (.xform 2 1 3 (.slot 0)) = "XFORM r2, r1, r3, sb0" ∧ asmText (.vrd 0 2) = "VRD v0, r2" ∧
    asmText .nop = "NOP" ∧ asmText (.sbst 1 6) = "SBST sb1, r6" := by decide

/-- `SBREL sb2` is `SBREL sb2, 0` (30_encoding.md R56; row S9). -/
theorem test_pseudo_sbrel : (pseudoSbrel 2).map encode = [0x21200000#32] := by decide

/-! ## Host commands (96 section 6) -/

/-- H1. -/
theorem test_nop : stepSat State.reset 0x00000000 (said .success 0#32) = true := by decide

/-- H2. -/
theorem test_li :
    stepSat (withRegs [(1, 0xDEADBEEF#32)]) 0x0110FFFF (fun t => t.reg 1 == 0x0000FFFF#32) = true := by decide

/-- H3. -/
theorem test_lih :
    stepSat (withRegs [(1, 0x0000FFFF#32)]) 0x02101234 (fun t => t.reg 1 == 0x1234FFFF#32) = true := by decide

/-- H6. -/
theorem test_getr :
    stepSat (withRegs [(7, 0x89ABCDEF#32)]) 0x03700000 (said .success 0x89ABCDEF#32) = true := by decide

/-- H7 and H9 to H12. -/
theorem test_rdc :
    stepSat State.reset 0x04000000 (said .success 0x47383901#32) = true ∧
    stepSat State.reset 0x04000002 (said .success 0x40FD452C#32) = true ∧
    stepSat State.reset 0x04000003 (said .success 0xF86EDCDB#32) = true ∧
    stepSat State.reset 0x04000004 (said .success 0x00204024#32) = true ∧
    stepSat State.reset 0x04000005 (said .success 0x00001000#32) = true := by decide

/-- `STATUS` of rows S1 (slot 3 live), V8 (vault 0 open) and the end of 96 section 10 (`LASTERR` 3). -/
theorem test_rdc_status :
    stepSat (withSlot State.reset 3 []) 0x04000001 (said .success 0x00000800#32) = true ∧
    stepSat (State.reset.setVault 0 openVault) 0x04000001 (said .success 0x00110000#32) = true ∧
    stepSat (State.reset.complete .stateError 0#32) 0x04000001 (said .success 0x00000003#32) = true := by decide

/-- H13. -/
theorem test_stb :
    stepSat (withRegs [(0, 0xFFF#32)]) 0x0800007F
      (fun t => t.xmemByte 0xFFF == 0x7F#8 && t.reg 0 == 0x1000#32) = true := by decide

/-- H14 and H15. -/
theorem test_stb_outside :
    stepSat (withRegs [(0, 0x1000#32)]) 0x0800007F
      (fun t => said .addressError 0#32 t && t.reg 0 == 0x1000#32) = true ∧
    stepSat (withRegs [(0, 0xFFFFFFFF#32)]) 0x0800007F
      (fun t => said .addressError 0#32 t && t.reg 0 == 0xFFFFFFFF#32) = true := by decide

/-- H16. -/
theorem test_ldb :
    stepSat ((withRegs [(2, 0xFFF#32)]).storeBytes 0xFFF [0x5A#8]) 0x09200000
      (fun t => said .success 0x5A#32 t && t.reg 2 == 0x1000#32) = true := by decide

/-- H23. -/
theorem test_ldb_of_word :
    stepSat ((withRegs [(2, 0x12#32)]).storeWord 0x10 0x40FD452C#32) 0x09200000
      (fun t => said .success 0xFD#32 t && t.reg 2 == 0x13#32) = true := by decide

/-- H18. -/
theorem test_stw :
    stepSat (withRegs [(1, 0x11#32), (4, 0x40FD452C#32)]) 0x0A140000
      (fun t => t.xmemBytes 0x11 4 == [0x2C#8, 0x45#8, 0xFD#8, 0x40#8] && t.reg 1 == 0x11#32) = true := by decide

/-- H20 and H21. -/
theorem test_stw_edges :
    stepSat (withRegs [(1, 0xFFD#32)]) 0x0A140000
      (fun t => said .addressError 0#32 t && t.xmem == []) = true ∧
    stepSat (withRegs [(3, 0x20#32)]) 0x0A330000
      (fun t => t.xmemBytes 0x20 4 == [0x20#8, 0#8, 0#8, 0#8]) = true := by decide

/-- H22. -/
theorem test_ldw :
    stepSat ((withRegs [(1, 0x10#32)]).storeBytes 0x10 [0x2C#8, 0x45#8, 0xFD#8, 0x40#8]) 0x0B110000
      (fun t => said .success 0x40FD452C#32 t && t.reg 1 == 0x40FD452C#32) = true := by decide

/-! ## Cipher datapath (95 sections 3 to 5) -/

theorem test_subst : subst tableT 0x12345678#32 = 0xF40584A6#32 := by decide

theorem test_roundF :
    roundF tableT 0x12345678#32 = 0x2C2537A0#32 ∧ roundF tableId 0x00200000#32 = 0x00000001#32 := by decide

theorem test_keyWords :
    (keyWords (upFromKey 0)).toList =
      [0x03020100#32, 0x07060504#32, 0x0B0A0908#32, 0x0F0E0D0C#32, 0x13121110#32, 0x17161514#32, 0x1B1A1918#32,
        0x1F1E1D1C#32] := by decide

theorem test_kidx :
    (List.range 32).map kidx =
      [0, 1, 2, 3, 4, 5, 6, 7, 0, 1, 2, 3, 4, 5, 6, 7, 0, 1, 2, 3, 4, 5, 6, 7, 7, 6, 5, 4, 3, 2, 1, 0] := by decide

/-- Two rows of the trace of 95 section 4, and its result. -/
theorem test_cipherRounds :
    cipherRounds tableId #v[1, 2, 3, 4, 5, 6, 7, 8] 1 (0x11111111#32, 0x22222222#32) =
      (0xAAAAB2AA#32, 0x11111111#32) ∧
    cipherBlock tableId #v[1, 2, 3, 4, 5, 6, 7, 8] (0x11111111#32, 0x22222222#32) =
      (0x53A6F826#32, 0xEC8C3BDF#32) := by decide

/-- The check value of 93_implementation_defined.md G4. -/
theorem test_cipherBlock :
    cipherBlock tableT
      #v[0x33206D54#32, 0x326C6568#32, 0x20657369#32, 0x626E7373#32, 0x79676120#32, 0x74746769#32, 0x65686573#32,
        0x733D2C20#32] (0#32, 0#32) = (0x32BC0B1B#32, 0x42ABBCCE#32) := by decide

theorem test_cAdd :
    cAdd 0xFEFEFEFB#32 0x01010104#32 = 0xFFFFFFFF#32 ∧ cAdd 0xFEFEFEFC#32 0x01010104#32 = 0x00000001#32 ∧
    cAdd 0xFFFFFFFF#32 0xFFFFFFFF#32 = 0xFFFFFFFF#32 ∧ cAdd 0x80000000#32 0x80000000#32 = 0x00000001#32 := by decide

theorem test_advance :
    advance (0x2CB8DD45#32, 0xBC293731#32) = (0x2DB9DE49#32, 0xBD2A3832#32) ∧
    (advance (0#32, 0xFEFEFEFF#32)).2 = 0#32 := by decide

theorem test_transform :
    transform tableT (0x40FD452C#32, 0xF86EDCDB#32) key1Vec pt17 = ct17 := by decide

/-! ## Cipher commands (96 section 7) -/

/-- C2: the table of the source is table T. -/
theorem test_cfgsbox :
    stepSat ((withRegs [(1, 128#32)]).storeBytes 0 (tableSource tableT)) 0x10010000
      (fun t => said .success 0#32 t && t.sbox == tableT) = true := by decide

/-- C1 and Q5: short source, and a range that leaves `XMEM`. -/
theorem test_cfgsbox_errors :
    stepSat (withRegs [(1, 127#32)]) 0x10010000 (said .configurationError 0#32) = true ∧
    stepSat (withRegs [(0, 0xFFF#32), (1, 128#32)]) 0x10010000 (said .addressError 0#32) = true := by decide

/-- Which register gives which word (30_encoding.md R55, 42_cipher_commands.md R83). -/
theorem test_cfgsync :
    stepSat (withRegs [(3, 0x11223344#32), (4, 0x55667788#32)]) 0x11340000
      (fun t => t.sync0 == 0x11223344#32 && t.sync1 == 0x55667788#32) = true := by decide

/-- C10. -/
theorem test_xform :
    stepSat (c10 0x200#32 0x300#32 17#32) 0x12213000
      (fun t => said .success 0#32 t && t.xmemBytes 0x300 17 == ct17 && t.xmemBytes 0x200 17 == pt17 &&
        t.engine == Engine.zero) = true := by decide

/-- C13, C14 (slot 1 is free), C15 and C18. -/
theorem test_xform_edges :
    stepSat (c10 0xFFFFFFFF#32 0x5000#32 0#32) 0x12213000 (said .success 0#32) = true ∧
    stepSat (c10 0xFF0#32 0x300#32 0#32) 0x12213100 (said .stateError 0#32) = true ∧
    stepSat (c10 0x200#32 0x201#32 8#32) 0x12213000 (said .addressError 0#32) = true ∧
    stepSat (c10 0xFF0#32 0x300#32 17#32) 0x12213000 (said .addressError 0#32) = true := by decide

/-! ## Secure-buffer commands (96 section 8) -/

/-- S7. -/
theorem test_sbld :
    stepSat ((withRegs [(2, 0x20#32)]).storeBytes 0x20 (List.replicate 32 0x33#8)) 0x20122000
      (fun t => said .success 0#32 t && t.slot? 1 == some (Slot.live 64 (List.replicate 32 0x33#8)) &&
        t.xmemBytes 0x20 32 == List.replicate 32 0#8) = true := by decide

/-- S5, Q1, Q2 and Q3. -/
theorem test_sbld_edges :
    stepSat (withRegs [(0, 0xFFFFFFFF#32)]) 0x20001000
      (fun t => said .success 0#32 t && t.slot? 0 == some (Slot.live 64 [])) = true ∧
    stepSat (withSlot (withRegs [(0, 0xFFF#32), (1, 65#32)]) 0 [0xAA#8, 0xBB#8]) 0x20001000
      (said .stateError 0#32) = true ∧
    stepSat (withRegs [(0, 0xFFF#32), (1, 65#32)]) 0x20001000 (said .lengthError 0#32) = true ∧
    stepSat (withRegs [(0, 0xFFF#32), (1, 64#32)]) 0x20001000 (said .addressError 0#32) = true := by decide

/-- S8: the whole capacity takes the fill. -/
theorem test_sbrel :
    stepSat (withSlot State.reset 2 (upFrom 0x10 16)) 0x212000A5
      (fun t => t.slot? 2 == some { valid := false, len := 0, bytes := List.replicate 64 0xA5#8 }) = true := by decide

/-- S11. -/
theorem test_sbrand :
    stepSat { withSlot State.reset 1 (upFrom 0 8) with rngIn := upFrom 0xA0 9 } 0x22100000
      (fun t => t.slot? 1 == some (Slot.live 64 (upFrom 0xA0 8)) && t.rngIn == [0xA8#8]) = true := by decide

/-- S13: nothing drawn. -/
theorem test_sbrand_free :
    stepSat { State.reset with rngIn := [0xA0#8] } 0x22100000
      (fun t => said .stateError 0#32 t && t.rngIn == [0xA0#8] && t.draws == 0) = true := by decide

/-- S15. -/
theorem test_sbst :
    stepSat (withSlot (withRegs [(6, 0xFF8#32)]) 1 (upFrom 0xA0 8)) 0x23160000
      (fun t => said .success 8#32 t && t.xmemBytes 0xFF8 8 == upFrom 0xA0 8) = true := by decide

/-- S16. -/
theorem test_sbst_outside :
    stepSat (withSlot (withRegs [(6, 0xFF9#32)]) 1 (upFrom 0xA0 8)) 0x23160000
      (fun t => said .addressError 0#32 t && t.xmem == []) = true := by decide

/-- S19, S20 and S21. -/
theorem test_sblen :
    stepSat (withSlot State.reset 0 key1) 0x24000000 (said .success 0x20#32) = true ∧
    stepSat (withSlot State.reset 0 []) 0x24000000 (said .success 0#32) = true ∧
    stepSat State.reset 0x24000000 (said .stateError 0#32) = true := by decide

/-! ## Vault and guard commands (96 section 9) -/

/-- V1. -/
theorem test_vnew :
    stepSat { withSlot State.reset 0 key1 with rngIn := upFrom 0x20 32 } 0x30000000
      (fun t => t.vault? 0 == some lockedVault && t.slot? 0 == some (Slot.free 64 0#8) && t.rngIn == []) = true := by
  decide

/-- V7 (an existing vault is reported before the length) and V5. -/
theorem test_vnew_errors :
    stepSat (withSlot (State.reset.setVault 0 lockedVault) 0 (upFrom 0 33)) 0x30000000
      (said .stateError 0#32) = true ∧
    stepSat (withSlot State.reset 0 (upFrom 0 33)) 0x30000000 (said .lengthError 0#32) = true := by decide

/-- V8. -/
theorem test_gacq :
    stepSat (State.reset.setVault 0 lockedVault) 0x31000000 (fun t => t.vault? 0 == some openVault) = true := by decide

/-- V9 and V10. -/
theorem test_gacq_errors :
    stepSat (State.reset.setVault 0 openVault) 0x31000000
      (fun t => said .stateError 0#32 t && t.vault? 0 == some openVault) = true ∧
    stepSat State.reset 0x31000000 (said .stateError 0#32) = true := by decide

/-- V11. -/
theorem test_grel :
    stepSat { State.reset.setVault 0 openVault with rngIn := upFrom 0x40 32 } 0x32000000
      (fun t => t.vault? 0 == some { valid := true, guard := false, data := (upFromKey 0x40).set 0 0x41#8,
                                     mask := upFromKey 0x40 }) = true := by decide

/-- V12. -/
theorem test_grel_locked :
    stepSat (State.reset.setVault 0 lockedVault) 0x32000000
      (fun t => said .stateError 0#32 t && t.vault? 0 == some lockedVault && t.draws == 0) = true := by decide

/-- V17. -/
theorem test_vrd :
    stepSat ((withRegs [(2, 0xFE0#32)]).setVault 0 openVault) 0x33020000
      (fun t => said .success 0#32 t && t.xmemBytes 0xFE0 32 == key1) = true := by decide

/-- V15 and V16. -/
theorem test_vrd_errors :
    stepSat ((withRegs [(2, 0x200#32)]).setVault 0 lockedVault) 0x33020000
      (fun t => said .stateError 0#32 t && t.xmem == []) = true ∧
    stepSat ((withRegs [(2, 0xFE1#32)]).setVault 0 openVault) 0x33020000 (said .addressError 0#32) = true := by decide

/-- V19 and V21. -/
theorem test_vdel :
    stepSat (State.reset.setVault 0 lockedVault) 0x34000000
      (fun t => said .success 0#32 t && t.vault? 0 == some Vault.absent) = true ∧
    stepSat State.reset 0x34100000 (fun t => said .success 0#32 t && t.vault? 1 == some Vault.absent) = true := by
  decide

/-- V20. -/
theorem test_vdel_guarded :
    stepSat (State.reset.setVault 0 openVault) 0x34000000
      (fun t => said .stateError 0#32 t && t.status == 0x00110003#32) = true := by decide

/-- 70_reset_and_hazards.md R121: a reset input does not erase `XMEM`; a byte stored before it may still be there. -/
theorem test_reset_lets_xmem_survive (v : Byte) (h : Config.xmemReset 1 0 v = v) :
    ∃ t, step { State.reset.storeBytes 0 [v] with port := [.reset] } = .next t ∧ t.xmemByte 0 = v :=
  ⟨_, rfl, h⟩

/-! ## Witnesses: concrete values that meet the hypotheses of each statement, clause by clause -/

/-- A state with a command word at its port. -/
def presented (w : Nat) : State := State.reset.withFetchWord 32 w

/-- Slot `b` live with `n` bytes, register 0 and register 1 set. -/
def slotState (b : SlotIx) (n : Nat) (x0 x1 : Word) : State :=
  withSlot (withRegs [(0, x0), (1, x1)]) b (List.replicate n 1#8)

theorem witness_DecodeOfEncodeIsTheCommand :
    (Instr.xform 7 0 7 (.vault 1)).wellFormed Params.default = true ∧
    (Instr.vnew 1 3).wellFormed Params.default = true := by decide

theorem witness_DecodedWordIsTheCommandsWord :
    decode Params.default 0x12223900#32 = .ok (.xform 2 2 3 (.vault 1)) := by rfl

theorem witness_IllegalWordChangesOnlyLastErr :
    (presented 0x05000000).port = .command 0x05000000#32 :: [] ∧
    ∀ i : Instr, i.wellFormed (presented 0x05000000).params = true → encode i ≠ 0x05000000#32 := by
  refine ⟨by decide, fun i _ h => ?_⟩
  have hop : opcodeByte (instrOpcode i) = 0x05#8 := by
    have h1 : (encode i).extractLsb' 24 8 = opcodeByte (instrOpcode i) := by
      cases i <;> exact fieldsWord_op _
    rw [← h1, h]
    decide
  have : ∀ o : Opcode, opcodeByte o ≠ 0x05#8 := by intro o; cases o <;> decide
  exact this _ hop

/-- A word that meets the hypotheses of `OtherWordsAreIllegal`. -/
def OtherWord (op : Byte) (mine : Instr → Prop) (w : Nat) : Prop :=
  (presented w).port = .command (BitVec.ofNat 32 w) :: [] ∧ (BitVec.ofNat 32 w).extractLsb' 24 8 = op ∧
    ∀ i : Instr, mine i → i.wellFormed (presented w).params = true → encode i ≠ BitVec.ofNat 32 w

/-- A word in which a bit of a field that a command leaves zero is set is no word of that command. -/
theorem otherWord_of_zero {op : Byte} {mine : Instr → Prop} {w st n : Nat}
    (hp : (presented w).port = .command (BitVec.ofNat 32 w) :: [])
    (ho : (BitVec.ofNat 32 w).extractLsb' 24 8 = op)
    (h : ∀ i, mine i → (encode i).extractLsb' st n = 0)
    (hw : (BitVec.ofNat 32 w).extractLsb' st n ≠ 0) : OtherWord op mine w :=
  ⟨hp, ho, fun i hi _ he => hw (he ▸ h i hi)⟩

/-- For every command that uses no bit of 7:0, a word of its opcode with bit 0 set; for the others, one with bit 16
set. -/
theorem witness_OtherWordsAreIllegal :
    OtherWord 0x00#8 (fun i => i = .nop) 0x00000001 ∧
    OtherWord 0x01#8 (fun i => ∃ rd imm, i = .li rd imm) 0x01010000 ∧
    OtherWord 0x02#8 (fun i => ∃ rd imm, i = .lih rd imm) 0x02010000 ∧
    OtherWord 0x03#8 (fun i => ∃ rs, i = .getr rs) 0x03000001 ∧
    OtherWord 0x04#8 (fun i => ∃ c, i = .rdc c) 0x04010000 ∧
    OtherWord 0x08#8 (fun i => ∃ ra imm, i = .stb ra imm) 0x08010000 ∧
    OtherWord 0x09#8 (fun i => ∃ ra, i = .ldb ra) 0x09000001 ∧
    OtherWord 0x0A#8 (fun i => ∃ ra rb, i = .stw ra rb) 0x0A000001 ∧
    OtherWord 0x0B#8 (fun i => ∃ rd ra, i = .ldw rd ra) 0x0B000001 ∧
    OtherWord 0x10#8 (fun i => ∃ ra rn, i = .cfgsbox ra rn) 0x10000001 ∧
    OtherWord 0x11#8 (fun i => ∃ ra rb, i = .cfgsync ra rb) 0x11000001 ∧
    OtherWord 0x12#8 (fun i => ∃ rd rs rn ks, i = .xform rd rs rn ks) 0x12213001 ∧
    OtherWord 0x20#8 (fun i => ∃ sb ra rn, i = .sbld sb ra rn) 0x20000001 ∧
    OtherWord 0x21#8 (fun i => ∃ sb imm, i = .sbrel sb imm) 0x21010000 ∧
    OtherWord 0x22#8 (fun i => ∃ sb, i = .sbrand sb) 0x22000001 ∧
    OtherWord 0x23#8 (fun i => ∃ sb ra, i = .sbst sb ra) 0x23000001 ∧
    OtherWord 0x24#8 (fun i => ∃ sb, i = .sblen sb) 0x24000001 ∧
    OtherWord 0x30#8 (fun i => ∃ v sb, i = .vnew v sb) 0x30000001 ∧
    OtherWord 0x31#8 (fun i => ∃ v, i = .gacq v) 0x31000001 ∧
    OtherWord 0x32#8 (fun i => ∃ v, i = .grel v) 0x32000001 ∧
    OtherWord 0x33#8 (fun i => ∃ v ra, i = .vrd v ra) 0x33000001 ∧
    OtherWord 0x34#8 (fun i => ∃ v, i = .vdel v) 0x34000010 := by
  refine ⟨?_, ?_, ?_, ?_, ?_, ?_, ?_, ?_, ?_, ?_, ?_, ?_, ?_, ?_, ?_, ?_, ?_, ?_, ?_, ?_, ?_, ?_⟩
  case refine_2 | refine_3 | refine_5 | refine_6 | refine_14 =>
    exact otherWord_of_zero (st := 16) (n := 4) (by decide) (by decide)
      (by rintro i ⟨_, h⟩; obtain ⟨_, rfl⟩ := h; exact fieldsWord_b _)
      (by decide)
  all_goals
    refine otherWord_of_zero (st := 0) (n := 8) (by decide) (by decide) ?_ (by decide)
    intro i hi
    first
      | (subst hi; exact fieldsWord_low _)
      | (obtain ⟨_, rfl⟩ := hi; exact fieldsWord_low _)
      | (obtain ⟨_, _, rfl⟩ := hi; exact fieldsWord_low _)
      | (obtain ⟨_, _, _, rfl⟩ := hi; exact fieldsWord_low _)
      | (obtain ⟨_, _, _, _, rfl⟩ := hi; exact fieldsWord_low _)

theorem witness_UnassignedOpcodesAreIllegal :
    ((0x05000000#32).extractLsb' 24 8).toNat ∉
      [0x00, 0x01, 0x02, 0x03, 0x04, 0x08, 0x09, 0x0A, 0x0B, 0x10, 0x11, 0x12,
        0x20, 0x21, 0x22, 0x23, 0x24, 0x30, 0x31, 0x32, 0x33, 0x34] ∧
    ((0xFFFFFFFF#32).extractLsb' 24 8).toNat ∉
      [0x00, 0x01, 0x02, 0x03, 0x04, 0x08, 0x09, 0x0A, 0x0B, 0x10, 0x11, 0x12,
        0x20, 0x21, 0x22, 0x23, 0x24, 0x30, 0x31, 0x32, 0x33, 0x34] := by decide

theorem witness_StepRunsTheDecodedCommand :
    (presented 0x31100000).port = .command 0x31100000#32 :: [] ∧
    decode (presented 0x31100000).params 0x31100000#32 = .ok (.gacq 1) := ⟨by decide, rfl⟩

theorem witness_StepWithoutInputChangesNothing : State.reset.port = [] := rfl

/-- The reset, and the last register and round of the clauses with a bound. -/
theorem witness_ResetStateHoldsTheResetValues : (31 : Nat) < 32 ∧
    (Slot.free 64 0#8) ∈ State.reset.slots ∧ Vault.absent ∈ State.reset.vaults := by decide

theorem witness_ResetInputGivesTheResetValues :
    ({ presented 0 with port := [.reset, .command 0#32] } : State).port = .reset :: [.command 0#32] := rfl

/-- The reset state with a `GACQ v0` presented meets the invariant, and its step answers a next state. -/
theorem witness_EveryStepKeepsTheInvariant :
    (presented 0x31000000).Inv ∧ ∃ t, step (presented 0x31000000) = .next t := by
  refine ⟨⟨by decide, by decide, rfl, ?_, rfl, ?_, rfl⟩, _, rfl⟩
  · intro sl h
    obtain rfl : sl = Slot.free 64 0#8 := List.eq_of_mem_replicate h
    exact ⟨rfl, fun _ => ⟨rfl, 0#8, rfl⟩, fun h => by cases h⟩
  · intro x h
    obtain rfl : x = Vault.absent := List.eq_of_mem_replicate h
    exact ⟨fun _ => ⟨rfl, rfl, rfl⟩⟩

theorem witness_StepKeepsParametersAndTakesOneInput :
    ∃ t, step (presented 0x0110FFFF) = .next t := ⟨_, rfl⟩

theorem witness_FailedCommandChangesNothing :
    ∃ t, exec (.gacq 0) State.reset = .next t ∧ t.lastErr ≠ .success := ⟨_, rfl, by decide⟩

/-- A failing word, and an `RDC 1`. -/
theorem witness_EveryCommandAnswersAndWritesLastErr :
    (∃ t, (presented 0x31000000).port = .command 0x31000000#32 :: [] ∧
      step (presented 0x31000000) = .next t ∧ t.lastErr ≠ .success) ∧
    (presented 0x04000001).port = .command 0x04000001#32 :: [] :=
  ⟨⟨_, by decide, rfl, by decide⟩, by decide⟩

theorem witness_CommandsRaiseOnlyTheirListedErrors :
    ∃ t, (Instr.gacq 1).wellFormed State.reset.params = true ∧
      State.reset.slots.length = State.reset.params.nsb ∧
      State.reset.vaults.length = State.reset.params.nvault ∧ exec (.gacq 1) State.reset = .next t :=
  ⟨_, by decide, by decide, by decide, rfl⟩

theorem witness_IllFormedCommandIsIllegal :
    (Instr.sbld 4 0 0).wellFormed State.reset.params = false ∧
    (Instr.vdel 2).wellFormed State.reset.params = false ∧
    State.reset.slots.length = State.reset.params.nsb ∧
    State.reset.vaults.length = State.reset.params.nvault := by decide

/-- Each control register is one of the clauses. -/
theorem witness_RdcAnswersTheControlRegister :
    [Csr.id, .status, .sync0, .sync1, .config, .xmemsz].all
      (fun c => nextSat (exec (.rdc c) State.reset) fun t => t.lastErr == .success) = true := by decide

/-- The last slot and the last vault flag; another read than that of `STATUS`, and a command that can fail. -/
theorem witness_StatusBitsAreTheFlags : (7 : Nat) < 8 ∧ (3 : Nat) < 4 ∧
    Instr.rdc .id ≠ .rdc .status ∧ Instr.gacq 0 ≠ .rdc .status := by decide

/-- The defaults and both ends of every range. -/
theorem witness_ConfigHoldsTheParameters :
    Params.default.Legal ∧
    Params.Legal { xmemSize := 128, nsb := 1, sbCap := 32, nvault := 1 } ∧
    Params.Legal { xmemSize := 2 ^ 31, nsb := 8, sbCap := 255, nvault := 4 } := by decide

/-- The last byte, and the first address beyond it. -/
theorem witness_StbStoresAByteAndSteps :
    (withRegs [(0, 0xFFF#32)]).InRange ((withRegs [(0, 0xFFF#32)]).reg 0) 1 ∧
    ¬ (withRegs [(0, 0x1000#32)]).InRange ((withRegs [(0, 0x1000#32)]).reg 0) 1 := by decide

theorem witness_LdbAnswersAByteAndSteps :
    (withRegs [(2, 0xFFF#32)]).InRange ((withRegs [(2, 0xFFF#32)]).reg 2) 1 ∧
    ¬ (withRegs [(2, 0xFFFFFFFF#32)]).InRange ((withRegs [(2, 0xFFFFFFFF#32)]).reg 2) 1 := by decide

/-- The last word, the first address that is too high, and the last byte of a word. -/
theorem witness_StwStoresAWordLittleEndian :
    (withRegs [(1, 0xFFC#32)]).InRange ((withRegs [(1, 0xFFC#32)]).reg 1) 4 ∧ (3 : Nat) < 4 ∧
    ¬ (withRegs [(1, 0xFFD#32)]).InRange ((withRegs [(1, 0xFFD#32)]).reg 1) 4 := by decide

theorem witness_LdwLoadsAWordLittleEndian :
    (withRegs [(1, 0xFFC#32)]).InRange ((withRegs [(1, 0xFFC#32)]).reg 1) 4 ∧ (3 : Nat) < 4 ∧
    ¬ (withRegs [(1, 0xFFD#32)]).InRange ((withRegs [(1, 0xFFD#32)]).reg 1) 4 := by decide

/-- `CFGSBOX`: a source of 127 bytes; a range one byte too high; entry 127 above 15; a good table that ends `XMEM`. -/
theorem witness_CfgsboxReplacesTheWholeTable :
    ((withRegs [(1, 127#32)]).reg 1).toNat < 128 ∧
    (128 ≤ ((withRegs [(0, 0xF81#32), (1, 128#32)]).reg 1).toNat ∧
      ¬ (withRegs [(0, 0xF81#32), (1, 128#32)]).InRange ((withRegs [(0, 0xF81#32), (1, 128#32)]).reg 0) 128) ∧
    (128 ≤ ((withRegs [(1, 128#32)]).reg 1).toNat ∧
      (withRegs [(1, 128#32)]).InRange ((withRegs [(1, 128#32)]).reg 0) 128 ∧
      15 < (((withRegs [(1, 128#32)]).storeBytes 127 [0x10#8]).xmemByte 127).toNat) ∧
    (withRegs [(0, 0xF80#32), (1, 128#32)]).InRange ((withRegs [(0, 0xF80#32), (1, 128#32)]).reg 0) 128 ∧
    (∀ k, k < 128 →
      (((withRegs [(0, 0xF80#32), (1, 128#32)]).storeBytes 0xF80 (tableSource tableT)).xmemByte (0xF80 + k)).toNat ≤
        15) := by decide

/-- `XFORM`: each key-source error, a key from a slot and from a vault, each address error, and a run. -/
theorem witness_XformTransformsTheSource :
    (State.reset.slot? 0 = some (Slot.free 64 0#8) ∧ (Slot.free 64 0#8).valid = false) ∧
    ((slotState 0 31 0#32 0#32).slot? 0 = some (Slot.live 64 (List.replicate 31 1#8)) ∧
      (Slot.live 64 (List.replicate 31 1#8)).valid = true ∧ (Slot.live 64 (List.replicate 31 1#8)).len ≠ 32) ∧
    ((State.reset.setVault 1 lockedVault).vault? 1 = some lockedVault ∧ lockedVault.guard = false) ∧
    ((c10 0x200#32 0x300#32 17#32).slot? 0 = some (Slot.live 64 key1) ∧ (Slot.live 64 key1).valid = true ∧
      (Slot.live 64 key1).len = 32 ∧ ∀ i : Fin 32, key1Vec[i.val] = (Slot.live 64 key1).byte i.val) ∧
    ((State.reset.setVault 1 openVault).vault? 1 = some openVault ∧ openVault.valid = true ∧
      openVault.guard = true ∧ key1Vec = openVault.data) ∧
    ¬ (c10 0xFF0#32 0x300#32 17#32).InRange ((c10 0xFF0#32 0x300#32 17#32).reg 1)
      ((c10 0xFF0#32 0x300#32 17#32).reg 3).toNat ∧
    ¬ (c10 0x300#32 0xFF0#32 17#32).InRange ((c10 0x300#32 0xFF0#32 17#32).reg 2)
      ((c10 0x300#32 0xFF0#32 17#32).reg 3).toNat ∧
    Overlap ((c10 0x200#32 0x207#32 8#32).reg 2) ((c10 0x200#32 0x207#32 8#32).reg 1)
      ((c10 0x200#32 0x207#32 8#32).reg 3).toNat ∧
    ((c10 0x208#32 0x200#32 8#32).InRange ((c10 0x208#32 0x200#32 8#32).reg 1)
        ((c10 0x208#32 0x200#32 8#32).reg 3).toNat ∧
      (c10 0x208#32 0x200#32 8#32).InRange ((c10 0x208#32 0x200#32 8#32).reg 2)
        ((c10 0x208#32 0x200#32 8#32).reg 3).toNat ∧
      ¬ Overlap ((c10 0x208#32 0x200#32 8#32).reg 2) ((c10 0x208#32 0x200#32 8#32).reg 1)
        ((c10 0x208#32 0x200#32 8#32).reg 3).toNat) := by decide

theorem witness_XformInPlaceUndoesXform :
    ∃ t, exec (.xform 2 1 3 (.slot 0)) (c10 0x200#32 0x300#32 17#32) = .next t ∧ t.lastErr = .success := by
  obtain ⟨t, h1, h2⟩ := nextSat_iff.mp (show nextSat (exec (.xform 2 1 3 (.slot 0)) (c10 0x200#32 0x300#32 17#32))
    (fun t => t.lastErr == .success) = true by decide)
  exact ⟨t, h1, by simpa using h2⟩

/-- The lowest and the highest bit. -/
theorem witness_RoundFunctionRotatesBy11 : (0 : Nat) < 32 ∧ (31 : Nat) < 32 := by decide

/-- The identity table is a permutation table. -/
theorem witness_RoundFunctionIsABijection : ∀ g : Fin 8, Function.Injective (sboxEntry tableId g) := by
  intro g a b
  revert a b
  revert g
  decide

/-- The last round of the rising part, the first and the last of the falling one. -/
theorem witness_KeyScheduleOrder : (23 : Nat) ≤ 23 ∧ (24 : Nat) ≤ 24 ∧ (24 : Nat) ≤ 31 ∧ (31 : Nat) ≤ 31 := by decide

/-- The first and the last round that swaps. -/
theorem witness_BlockIsThirtyTwoRounds : (0 : Nat) ≤ 30 ∧ (30 : Nat) ≤ 30 := by decide

/-- A sum of exactly 2^32 - 1, and one of exactly 2^32. -/
theorem witness_CarryAwareAddition :
    (0xFEFEFEFB#32).toNat + (0x01010104#32).toNat < 2 ^ 32 ∧
    ¬ (0xFEFEFEFC#32).toNat + (0x01010104#32).toNat < 2 ^ 32 := by decide

/-- The last byte of `GA` and of `GB`; the single byte of the last, partial group. -/
theorem witness_TransformIsCounterKeystream : (3 : Nat) < 4 ∧ 16 < pt17.length := by decide

/-- `SBLD`: a live slot; 65 bytes; 64 bytes from 0xFC1; 64 bytes from 0xFC0; no byte; the last byte in and the first
beyond. -/
theorem witness_SbldConsumesItsSource :
    ((slotState 0 2 0#32 1#32).slot? 0 = some (Slot.live 64 (List.replicate 2 1#8)) ∧
      (Slot.live 64 (List.replicate 2 1#8)).valid = true) ∧
    (State.reset.slot? 0 = some (Slot.free 64 0#8) ∧ (Slot.free 64 0#8).valid = false) ∧
    ((withRegs [(1, 65#32)]).reg 1).toNat > State.reset.params.sbCap ∧
    ((withRegs [(0, 0xFC1#32), (1, 64#32)]).reg 1).toNat ≤ State.reset.params.sbCap ∧
    ¬ (withRegs [(0, 0xFC1#32), (1, 64#32)]).InRange ((withRegs [(0, 0xFC1#32), (1, 64#32)]).reg 0) 64 ∧
    (withRegs [(0, 0xFC0#32), (1, 64#32)]).InRange ((withRegs [(0, 0xFC0#32), (1, 64#32)]).reg 0) 64 ∧
    (withRegs [(0, 0xFFFFFFFF#32)]).InRange ((withRegs [(0, 0xFFFFFFFF#32)]).reg 0) 0 ∧
    (63 : Nat) < ((withRegs [(1, 64#32)]).reg 1).toNat ∧ ((withRegs [(1, 64#32)]).reg 1).toNat ≤ 64 := by decide

theorem witness_SbrelErasesTheSlot :
    State.reset.slot? 3 = some (Slot.free 64 0#8) ∧
    (slotState 3 64 0#32 0#32).slot? 3 = some (Slot.live 64 (List.replicate 64 1#8)) := by decide

/-- A free slot; a live one with 8 bytes: the last byte in and the first beyond. -/
theorem witness_SbrandFillsFromTheRandomSource :
    (State.reset.slot? 1 = some (Slot.free 64 0#8) ∧ (Slot.free 64 0#8).valid = false) ∧
    ((slotState 1 8 0#32 0#32).slot? 1 = some (Slot.live 64 (List.replicate 8 1#8)) ∧
      (Slot.live 64 (List.replicate 8 1#8)).valid = true ∧ 7 < (Slot.live 64 (List.replicate 8 1#8)).len ∧
      (Slot.live 64 (List.replicate 8 1#8)).len ≤ 8) := by decide

/-- A free slot; 8 bytes to 0xFF9; 8 bytes to 0xFF8; no byte. -/
theorem witness_SbstCopiesTheContentOut :
    (State.reset.slot? 1 = some (Slot.free 64 0#8) ∧ (Slot.free 64 0#8).valid = false) ∧
    ((slotState 1 8 0xFF9#32 0#32).slot? 1 = some (Slot.live 64 (List.replicate 8 1#8)) ∧
      (Slot.live 64 (List.replicate 8 1#8)).valid = true ∧
      ¬ (slotState 1 8 0xFF9#32 0#32).InRange ((slotState 1 8 0xFF9#32 0#32).reg 0)
        (Slot.live 64 (List.replicate 8 1#8)).len) ∧
    ((slotState 1 8 0xFF8#32 0#32).InRange ((slotState 1 8 0xFF8#32 0#32).reg 0)
        (Slot.live 64 (List.replicate 8 1#8)).len ∧ 7 < (Slot.live 64 (List.replicate 8 1#8)).len) ∧
    (slotState 1 0 0xFFFFFFFF#32 0#32).InRange ((slotState 1 0 0xFFFFFFFF#32 0#32).reg 0) 0 := by decide

theorem witness_SblenAnswersTheLength :
    (State.reset.slot? 0 = some (Slot.free 64 0#8) ∧ (Slot.free 64 0#8).valid = false) ∧
    ((slotState 0 0 0#32 0#32).slot? 0 = some (Slot.live 64 []) ∧ (Slot.live 64 []).valid = true) := by decide

/-- `VNEW`: an existing vault; a free slot; 33 bytes; 32 bytes. -/
theorem witness_VnewBuildsALockedVault :
    ((State.reset.setVault 0 lockedVault).vault? 0 = some lockedVault ∧ lockedVault.valid = true) ∧
    (State.reset.slot? 0 = some (Slot.free 64 0#8) ∧ (Slot.free 64 0#8).valid = false) ∧
    ((slotState 0 33 0#32 0#32).vault? 0 = some Vault.absent ∧ Vault.absent.valid = false ∧
      (slotState 0 33 0#32 0#32).slot? 0 = some (Slot.live 64 (List.replicate 33 1#8)) ∧
      (Slot.live 64 (List.replicate 33 1#8)).valid = true ∧ (Slot.live 64 (List.replicate 33 1#8)).len > 32) ∧
    ((slotState 0 32 0#32 0#32).slot? 0 = some (Slot.live 64 (List.replicate 32 1#8)) ∧
      (Slot.live 64 (List.replicate 32 1#8)).valid = true ∧ (Slot.live 64 (List.replicate 32 1#8)).len ≤ 32) := by
  decide

theorem witness_GacqUnlocksTheVault :
    (State.reset.vault? 0 = some Vault.absent ∧ Vault.absent.valid = false) ∧
    ((State.reset.setVault 0 openVault).vault? 0 = some openVault ∧ openVault.guard = true) ∧
    ((State.reset.setVault 0 lockedVault).vault? 0 = some lockedVault ∧ lockedVault.valid = true ∧
      lockedVault.guard = false) := by decide

theorem witness_GrelRelocksUnderAFreshPad :
    (State.reset.vault? 1 = some Vault.absent ∧ Vault.absent.valid = false) ∧
    ((State.reset.setVault 1 lockedVault).vault? 1 = some lockedVault ∧ lockedVault.guard = false) ∧
    ((State.reset.setVault 1 openVault).vault? 1 = some openVault ∧ openVault.valid = true ∧
      openVault.guard = true) := by decide

/-- `VRD`: no vault; no guard; 32 bytes to 0xFE1; 32 bytes to 0xFE0. -/
theorem witness_VrdCopiesTheKeyView :
    (State.reset.vault? 0 = some Vault.absent ∧ Vault.absent.valid = false) ∧
    ((State.reset.setVault 0 lockedVault).vault? 0 = some lockedVault ∧ lockedVault.guard = false) ∧
    ((State.reset.setVault 0 openVault).vault? 0 = some openVault ∧ openVault.valid = true ∧
      openVault.guard = true) ∧
    ¬ ((withRegs [(2, 0xFE1#32)]).setVault 0 openVault).InRange
      (((withRegs [(2, 0xFE1#32)]).setVault 0 openVault).reg 2) 32 ∧
    ((withRegs [(2, 0xFE0#32)]).setVault 0 openVault).InRange
      (((withRegs [(2, 0xFE0#32)]).setVault 0 openVault).reg 2) 32 := by decide

/-- `VDEL`: under a guard; of an absent vault. -/
theorem witness_VdelErasesTheVault :
    ((State.reset.setVault 0 openVault).vault? 0 = some openVault ∧ openVault.guard = true) ∧
    (State.reset.vault? 1 = some Vault.absent ∧ Vault.absent.guard = false) := by decide

/-- A `GREL` step, before and after which the vault exists. -/
theorem witness_VaultKeySurvivesEveryStep :
    ∃ t y, step ((State.reset.setVault 0 openVault).withFetchWord 32 0x32000000) = .next t ∧
      ((State.reset.setVault 0 openVault).withFetchWord 32 0x32000000).vaults[0]? = some openVault ∧
      t.vaults[0]? = some y ∧ openVault.valid = true ∧ y.valid = true := by
  have h : nextSat (step ((State.reset.setVault 0 openVault).withFetchWord 32 0x32000000))
      (fun t => t.vaults[0]?.any Vault.valid) = true := by decide
  obtain ⟨t, h1, h2⟩ := nextSat_iff.mp h
  obtain ⟨y, h3, h4⟩ := Option.any_eq_true _ _ |>.mp h2
  exact ⟨t, y, h1, by decide, h3, by decide, h4⟩

theorem witness_VaultsAreIndependent :
    namedVault (.gacq 0) = some 0 ∧ (1 : VaultIx) ≠ 0 ∧
    ∃ t, exec (.gacq 0) (State.reset.setVault 0 lockedVault) = .next t := ⟨rfl, by decide, _, rfl⟩

/-- A vault that comes to be by `VNEW`, and one that ends by `VDEL`: the clauses of
`GuardAlternatesOnlyByItsCommands` that the next witness leaves. -/
theorem witness_VaultBeginsAndEnds :
    (∃ t y, exec (.vnew 0 0) (slotState 0 32 0#32 0#32) = .next t ∧
      (slotState 0 32 0#32 0#32).vaults[0]? = some Vault.absent ∧ t.vaults[0]? = some y ∧
      Vault.absent.valid = false ∧ y.valid = true) ∧
    (∃ t y, exec (.vdel 0) (State.reset.setVault 0 lockedVault) = .next t ∧
      (State.reset.setVault 0 lockedVault).vaults[0]? = some lockedVault ∧ t.vaults[0]? = some y ∧
      lockedVault.valid = true ∧ y.valid = false) := by
  have h : nextSat (exec (.vnew 0 0) (slotState 0 32 0#32 0#32))
      (fun t => t.vaults[0]?.any Vault.valid) = true := by decide
  obtain ⟨t, h1, h2⟩ := nextSat_iff.mp h
  obtain ⟨y, h3, h4⟩ := Option.any_eq_true _ _ |>.mp h2
  have h' : nextSat (exec (.vdel 0) (State.reset.setVault 0 lockedVault))
      (fun t => t.vaults[0]?.any fun x => !x.valid) = true := by decide
  obtain ⟨u, h5, h6⟩ := nextSat_iff.mp h'
  obtain ⟨z, h7, h8⟩ := Option.any_eq_true _ _ |>.mp h6
  exact ⟨⟨t, y, h1, by decide, h3, by decide, h4⟩, ⟨u, z, h5, by decide, h7, by decide, by simpa using h8⟩⟩

/-- The other vault of a `GACQ`; a flag that rises by `GACQ`; a flag that falls by `GREL`. -/
theorem witness_GuardAlternatesOnlyByItsCommands :
    (∃ t, exec (.gacq 0) (State.reset.setVault 0 lockedVault) = .next t ∧
      (∀ v : VaultIx, writtenVault (.gacq 0) = some v → 1 ≠ v.val)) ∧
    (∃ t y, exec (.gacq 0) (State.reset.setVault 0 lockedVault) = .next t ∧
      (State.reset.setVault 0 lockedVault).vaults[0]? = some lockedVault ∧ t.vaults[0]? = some y ∧
      lockedVault.valid = true ∧ lockedVault.guard = false ∧ y.guard = true) ∧
    (∃ t y, exec (.grel 0) (State.reset.setVault 0 openVault) = .next t ∧
      (State.reset.setVault 0 openVault).vaults[0]? = some openVault ∧ t.vaults[0]? = some y ∧
      openVault.valid = true ∧ openVault.guard = true ∧ y.guard = false) := by
  have h : nextSat (exec (.gacq 0) (State.reset.setVault 0 lockedVault))
      (fun t => t.vaults[0]?.any Vault.guard) = true := by decide
  obtain ⟨t, h1, h2⟩ := nextSat_iff.mp h
  obtain ⟨y, h3, h4⟩ := Option.any_eq_true _ _ |>.mp h2
  have h' : nextSat (exec (.grel 0) (State.reset.setVault 0 openVault))
      (fun t => t.vaults[0]?.any fun x => !x.guard) = true := by decide
  obtain ⟨u, h5, h6⟩ := nextSat_iff.mp h'
  obtain ⟨z, h7, h8⟩ := Option.any_eq_true _ _ |>.mp h6
  exact ⟨⟨t, h1, by decide⟩, ⟨t, y, h1, by decide, h3, by decide, by decide, h4⟩,
    ⟨u, z, h5, by decide, h7, by decide, by decide, by simpa using h8⟩⟩

/-- A `STB`: register 1 is not its register, slot 0 not its slot, and it is none of the three cipher commands. -/
theorem witness_StateIsWrittenOnlyByItsCommands :
    ∃ t, exec (.stb 0 0x7F#8) State.reset = .next t ∧ writtenReg (.stb 0 0x7F#8) ≠ some 1 ∧
      (∀ ra rb, Instr.stb 0 0x7F#8 ≠ .cfgsync ra rb) ∧ (∀ ra rn, Instr.stb 0 0x7F#8 ≠ .cfgsbox ra rn) ∧
      (∀ rd rs rn ks, Instr.stb 0 0x7F#8 ≠ .xform rd rs rn ks) ∧
      (∀ b : SlotIx, writtenSlot (.stb 0 0x7F#8) = some b → 0 ≠ b.val) :=
  ⟨_, rfl, by decide, by simp, by simp, by simp, by simp [writtenSlot]⟩

/-- A command that never draws, and one that would draw but fails. -/
theorem witness_OnlyThreeCommandsDraw :
    (∃ t, exec .nop State.reset = .next t ∧ mayDraw .nop = false) ∧
    (∃ t, exec (.grel 0) State.reset = .next t ∧ t.lastErr ≠ .success) :=
  ⟨⟨_, rfl, rfl⟩, ⟨_, rfl, by decide⟩⟩

/-- The reset state, and the same with the engine, a free slot and a locked vault's stores changed. -/
theorem witness_SecretsAreNotObservable :
    DifferOnlyInSecrets (State.reset.setVault 0 lockedVault)
      { ((State.reset.setSlot 1 (Slot.free 64 0xFF#8)).setVault 0
          { lockedVault with data := key1Vec, mask := upFromKey 0x60 }) with
        engine := { Engine.zero with a := 1#32 } } ∧
    (∃ t, exec (.vrd 0 0) (State.reset.setVault 0 lockedVault) = .next t) := by
  refine ⟨⟨⟨rfl, fun _ => rfl, rfl, rfl, fun _ => rfl, by decide, by decide, rfl, rfl⟩, rfl, by decide, rfl, rfl, rfl⟩,
    _, rfl⟩

end Sys2Proof.Tests
end

section
/-! SUPPORT. Proofs of the statements about the state block, the response and the control registers (10_state.md). -/

namespace Sys2Proof.Machine

/-! ## How a command ends -/

/-- The two ways a command can end: with success, or with an error and no other effect on the state it was given
(60_exceptions.md R112). -/
inductive Ending (s : State) : State → Prop where
  | succeeded (u : State) (v : Word) : Ending s (u.complete .success v)
  | failed (e : ErrCode) (he : e ≠ .success := by decide) : Ending s (s.complete e 0#32)

/-- However a command ends, the response carries the code that `LASTERR` holds, and an error answers 0
(10_state.md R22, R24). -/
theorem Ending.response {s t : State} (h : Ending s t) :
    ∃ v, t.response = some { err := t.lastErr, val := v } ∧ (t.lastErr ≠ .success → v = 0#32) := by
  cases h with
  | succeeded u v => exact ⟨v, rfl, fun hne => absurd rfl hne⟩
  | failed e he => exact ⟨0#32, rfl, fun _ => rfl⟩

/-- A key source is never refused with the code of success. -/
theorem State.keyOf_error_ne_success {s : State} {ks : KeySrc} {e : ErrCode} (h : s.keyOf ks = .error e) :
    e ≠ .success := by
  rintro rfl
  rcases s.keyOf_cases ks with ⟨hk, -⟩ | ⟨hk, -⟩ | ⟨hk, -⟩ | ⟨_, _, hk, -⟩ | ⟨_, _, hk, -⟩ <;>
    exact nomatch hk.symm.trans h

/-- Every command ends in one of the two ways. -/
theorem exec_ending {i : Instr} {s t : State} (h : exec i s = .next t) : Ending s t := by
  cases i with
  | nop => rw [exec_nop_cases h]; exact .succeeded _ _
  | li rd imm => rw [exec_li_cases h]; exact .succeeded _ _
  | lih rd imm => rw [exec_lih_cases h]; exact .succeeded _ _
  | getr rs => rw [exec_getr_cases h]; exact .succeeded _ _
  | rdc c => rw [exec_rdc_cases h]; exact .succeeded _ _
  | stb ra imm =>
    obtain ⟨-, rfl⟩ | ⟨-, rfl⟩ := exec_stb_cases h
    exacts [.failed .addressError, .succeeded _ _]
  | ldb ra =>
    obtain ⟨-, rfl⟩ | ⟨-, rfl⟩ := exec_ldb_cases h
    exacts [.failed .addressError, .succeeded _ _]
  | stw ra rb =>
    obtain ⟨-, rfl⟩ | ⟨-, rfl⟩ := exec_stw_cases h
    exacts [.failed .addressError, .succeeded _ _]
  | ldw rd ra =>
    obtain ⟨-, rfl⟩ | ⟨-, rfl⟩ := exec_ldw_cases h
    exacts [.failed .addressError, .succeeded _ _]
  | cfgsbox ra rn =>
    obtain ⟨-, rfl⟩ | ⟨-, -, rfl⟩ | ⟨-, -, -, rfl⟩ | ⟨-, -, -, rfl⟩ := exec_cfgsbox_cases h
    exacts [.failed .configurationError, .failed .addressError, .failed .configurationError, .succeeded _ _]
  | cfgsync ra rb => rw [exec_cfgsync_cases h]; exact .succeeded _ _
  | xform rd rs rn ks =>
    obtain ⟨e, hk, rfl⟩ | ⟨_, -, ⟨-, rfl⟩ | ⟨-, -, -, rfl⟩ | ⟨-, -, -, rfl⟩⟩ := exec_xform_cases h
    exacts [.failed e (State.keyOf_error_ne_success hk), .failed .addressError, .failed .addressError,
      .succeeded _ _]
  | sbld sb ra rn =>
    obtain ⟨-, rfl⟩ | ⟨_, -, ⟨-, rfl⟩ | ⟨-, -, rfl⟩ | ⟨-, -, -, rfl⟩ | ⟨-, -, -, rfl⟩⟩ := exec_sbld_cases h
    exacts [.failed .illegalCommand, .failed .stateError, .failed .lengthError, .failed .addressError,
      .succeeded _ _]
  | sbrel sb imm =>
    obtain ⟨-, rfl⟩ | ⟨_, -, rfl⟩ := exec_sbrel_cases h
    exacts [.failed .illegalCommand, .succeeded _ _]
  | sbrand sb =>
    obtain ⟨-, rfl⟩ | ⟨_, -, ⟨-, rfl⟩ | ⟨-, rfl⟩⟩ := exec_sbrand_cases h
    exacts [.failed .illegalCommand, .failed .stateError, .succeeded _ _]
  | sbst sb ra =>
    obtain ⟨-, rfl⟩ | ⟨_, -, ⟨-, rfl⟩ | ⟨-, -, rfl⟩ | ⟨-, -, rfl⟩⟩ := exec_sbst_cases h
    exacts [.failed .illegalCommand, .failed .stateError, .failed .addressError, .succeeded _ _]
  | sblen sb =>
    obtain ⟨-, rfl⟩ | ⟨_, -, ⟨-, rfl⟩ | ⟨-, rfl⟩⟩ := exec_sblen_cases h
    exacts [.failed .illegalCommand, .failed .stateError, .succeeded _ _]
  | vnew v sb =>
    obtain ⟨-, rfl⟩ | ⟨_, _, -, -, ⟨-, rfl⟩ | ⟨-, -, -, rfl⟩ | ⟨-, -, -, rfl⟩⟩ := exec_vnew_cases h
    exacts [.failed .illegalCommand, .failed .stateError, .failed .lengthError, .succeeded _ _]
  | gacq v =>
    obtain ⟨-, rfl⟩ | ⟨_, -, ⟨-, rfl⟩ | ⟨-, -, rfl⟩⟩ := exec_gacq_cases h
    exacts [.failed .illegalCommand, .failed .stateError, .succeeded _ _]
  | grel v =>
    obtain ⟨-, rfl⟩ | ⟨_, -, ⟨-, rfl⟩ | ⟨-, -, rfl⟩⟩ := exec_grel_cases h
    exacts [.failed .illegalCommand, .failed .stateError, .succeeded _ _]
  | vrd v ra =>
    obtain ⟨-, rfl⟩ | ⟨_, -, ⟨-, rfl⟩ | ⟨-, -, -, rfl⟩ | ⟨-, -, -, rfl⟩⟩ := exec_vrd_cases h
    exacts [.failed .illegalCommand, .failed .stateError, .failed .addressError, .succeeded _ _]
  | vdel v =>
    obtain ⟨-, rfl⟩ | ⟨_, -, ⟨-, rfl⟩ | ⟨-, rfl⟩⟩ := exec_vdel_cases h
    exacts [.failed .illegalCommand, .failed .stateError, .succeeded _ _]

/-! ## What a command word does -/

/-- A step on a presented word runs the word on the state without it. -/
theorem step_command {s : State} {w : Word} {rest : List HostInput} (h : s.port = .command w :: rest) :
    step s = runWord w { s with port := rest } := by
  simp only [step, runPort, State.nextInput?, h, runInput]

theorem runWord_of_decode_ok {s : State} {w : Word} {i : Instr} (h : decode s.params w = .ok i) :
    runWord w s = exec i s := by
  simp only [runWord, h]

theorem runWord_of_decode_error {s : State} {w : Word} {x : Illegal} (h : decode s.params w = .error x) :
    runWord w s = raise .illegalCommand s := by
  simp only [runWord, h]

/-- Every word, legal or not, ends in one of the two ways of a command. -/
theorem runWord_ending {w : Word} {s t : State} (h : runWord w s = .next t) : Ending s t := by
  cases hd : decode s.params w with
  | ok i => exact exec_ending ((runWord_of_decode_ok hd).symm.trans h)
  | error x =>
    rw [raise_eq_next.mp ((runWord_of_decode_error hd).symm.trans h)]
    exact .failed .illegalCommand

/-! ## What no command reads

Every meaning overwrites `lastErr` and `response` with constants or with what it computes from the other fields
(`State.complete`), so the two states of each arm agree by computation; only `RDC 1` reads one of the two. -/

/-- No command reads the response that the command before it left (10_state.md R24). -/
theorem exec_response_irrelevant (i : Instr) (s : State) (r : Option Response) :
    exec i { s with response := r } = exec i s := by
  cases i <;> rfl

/-- No command but the read of `STATUS` reads `LASTERR` (10_state.md R17). -/
theorem exec_lastErr_irrelevant {i : Instr} (s : State) (e : ErrCode) (h : i ≠ .rdc .status) :
    exec i { s with lastErr := e } = exec i s := by
  cases i with
  | rdc c =>
    cases c with
    | status => exact absurd rfl h
    | _ => rfl
  | _ => rfl

/-! ## The fields of `STATUS` -/

theorem State.slotValid_eq (s : State) (b : Nat) : s.slotValid b = (s.slots[b]?.map Slot.valid).getD false := by
  unfold State.slotValid
  cases s.slots[b]? <;> rfl

theorem State.vaultValid_eq (s : State) (v : Nat) :
    s.vaultValid v = (s.vaults[v]?.map Vault.valid).getD false := by
  unfold State.vaultValid
  cases s.vaults[v]? <;> rfl

theorem State.vaultGuard_eq (s : State) (v : Nat) :
    s.vaultGuard v = (s.vaults[v]?.map Vault.guard).getD false := by
  unfold State.vaultGuard
  cases s.vaults[v]? <;> rfl

theorem State.status_lastErr (s : State) : s.status.extractLsb' 0 4 = errNumber s.lastErr := by
  simp (disch := omega) only [State.status, extract_append_low, extract_whole]

theorem State.status_low_reserved (s : State) : s.status.extractLsb' 4 4 = 0#4 := by
  simp (disch := omega) only [State.status, extract_append_low, extract_append_high, extract_whole, Nat.reduceSub]

theorem State.status_slotValid (s : State) : s.status.extractLsb' 8 8 = flagBits 8 s.slotValid := by
  simp (disch := omega) only [State.status, extract_append_low, extract_append_high, extract_whole, Nat.reduceSub]

theorem State.status_vaultValid (s : State) : s.status.extractLsb' 16 4 = flagBits 4 s.vaultValid := by
  simp (disch := omega) only [State.status, extract_append_low, extract_append_high, extract_whole, Nat.reduceSub]

theorem State.status_vaultGuard (s : State) : s.status.extractLsb' 20 4 = flagBits 4 s.vaultGuard := by
  simp (disch := omega) only [State.status, extract_append_low, extract_append_high, extract_whole, Nat.reduceSub]

theorem State.status_high_reserved (s : State) : s.status.extractLsb' 24 8 = 0#8 := by
  simp (disch := omega) only [State.status, extract_append_high, extract_whole, Nat.reduceSub]

/-- A flag read through the field that holds the flags. -/
theorem getLsbD_of_field_flagBits {w a n : Nat} {x : BitVec w} {f : Nat → Bool}
    (h : x.extractLsb' a n = flagBits n f) {i : Nat} (hi : i < n) : x.getLsbD (a + i) = f i := by
  have hbit : (x.extractLsb' a n).getLsbD i = f i := by rw [h, flagBits_getLsbD]; simp [hi]
  simpa [hi] using hbit

/-! ## The fields of `CONFIG` -/

theorem configWord_nsb (p : Params) : (configWord p).extractLsb' 0 4 = BitVec.ofNat 4 p.nsb := by
  simp (disch := omega) only [configWord, extract_append_low, extract_whole]

theorem configWord_nvault (p : Params) : (configWord p).extractLsb' 4 4 = BitVec.ofNat 4 p.nvault := by
  simp (disch := omega) only [configWord, extract_append_low, extract_append_high, extract_whole, Nat.reduceSub]

theorem configWord_sbCap (p : Params) : (configWord p).extractLsb' 8 8 = BitVec.ofNat 8 p.sbCap := by
  simp (disch := omega) only [configWord, extract_append_low, extract_append_high, extract_whole, Nat.reduceSub]

theorem configWord_keySize (p : Params) : (configWord p).extractLsb' 16 8 = BitVec.ofNat 8 Config.keySize := by
  simp (disch := omega) only [configWord, extract_append_low, extract_append_high, extract_whole, Nat.reduceSub]

theorem configWord_reserved (p : Params) : (configWord p).extractLsb' 24 8 = 0#8 := by
  simp (disch := omega) only [configWord, extract_append_high, extract_whole, Nat.reduceSub]

/-! ## The values after reset, for all parameters -/

theorem State.afterReset_reg (p : Params) (n : Nat) (r : Reg) : (State.afterReset p n).reg r = 0#32 := by
  have hregs : (State.afterReset p n).regs = Vector.replicate 8 0#32 := rfl
  simp only [State.reg, hregs, Vector.getElem_replicate]

theorem State.afterReset_sboxEntry (p : Params) (n : Nat) (g : Fin 8) (e : Nibble) :
    sboxEntry (State.afterReset p n).sbox g e = Config.sboxReset g e.toFin := by
  simp only [sboxEntry, State.afterReset, Vector.getElem_ofFn]
  rfl

theorem roundKey_zero (r : Nat) : roundKey Engine.zero.k r = 0#32 := by
  have hk : Engine.zero.k = Vector.replicate 8 0#32 := rfl
  simp only [roundKey, hk, Vector.getElem_replicate]

theorem State.afterReset_slots_mem {p : Params} {n : Nat} {sl : Slot} (h : sl ∈ (State.afterReset p n).slots) :
    sl = Slot.free p.sbCap 0#8 := List.eq_of_mem_replicate h

theorem State.afterReset_vaults_mem {p : Params} {n : Nat} {x : Vault} (h : x ∈ (State.afterReset p n).vaults) :
    x = Vault.absent := List.eq_of_mem_replicate h

/-! ## The obligations -/

/-- Settles O15: every word has an `Ending`, `RDC 1` samples `STATUS` before it ends, and no arm reads the response. -/
theorem everyCommandAnswersAndWritesLastErr : Obligations.EveryCommandAnswersAndWritesLastErr := by
  refine ⟨fun s t w rest hp h => ?_, fun s rest hp => ?_, exec_response_irrelevant⟩
  · exact (runWord_ending ((step_command hp).symm.trans h)).response
  · have hd : decode s.params 0x04000001#32 = .ok (.rdc .status) := rfl
    have hstep : step s = exec (.rdc .status) { s with port := rest } :=
      (step_command hp).trans (runWord_of_decode_ok hd)
    exact ⟨_, s.status, hstep, State.complete_answers _ _ _, s.status_lastErr⟩

/-- Settles O24: the fields of `STATUS` one by one, and no arm but `RDC 1` reads `LASTERR`. -/
theorem statusBitsAreTheFlags : Obligations.StatusBitsAreTheFlags := by
  refine ⟨by decide, fun i s e hi => exec_lastErr_irrelevant s e hi, fun s => ?_⟩
  refine ⟨s.status_lastErr, s.status_low_reserved, fun b hb => ?_, fun v hv => ?_, fun v hv => ?_,
    s.status_high_reserved⟩
  · exact (getLsbD_of_field_flagBits s.status_slotValid hb).trans (s.slotValid_eq b)
  · exact (getLsbD_of_field_flagBits s.status_vaultValid hv).trans (s.vaultValid_eq v)
  · exact (getLsbD_of_field_flagBits s.status_vaultGuard hv).trans (s.vaultGuard_eq v)

/-- Settles O8: `State.reset` is `State.afterReset` of the default parameters. -/
theorem resetStateHoldsTheResetValues : Obligations.ResetStateHoldsTheResetValues := by
  refine ⟨State.afterReset_reg _ _, rfl, rfl, State.afterReset_sboxEntry _ _, fun r _ => roundKey_zero r,
    rfl, rfl, rfl, rfl, rfl, fun sl hsl => ?_, rfl, fun x hx => ?_, rfl⟩
  · obtain rfl := State.afterReset_slots_mem hsl
    exact ⟨rfl, rfl, rfl⟩
  · obtain rfl := State.afterReset_vaults_mem hx
    exact ⟨rfl, rfl, fun j => ⟨Key.zero_getElem j.val j.isLt, Key.zero_getElem j.val j.isLt⟩⟩

/-- Settles O26: each parameter fits its field of `CONFIG` by the bounds of `Params.Legal`. -/
theorem configHoldsTheParameters : Obligations.ConfigHoldsTheParameters := by
  refine ⟨by decide, fun p hp => ?_⟩
  obtain ⟨-, ⟨-, hnsb⟩, ⟨-, hcap⟩, ⟨-, hnvault⟩⟩ := hp
  simp only [configWord_nsb, configWord_nvault, configWord_sbCap, configWord_keySize, BitVec.toNat_ofNat]
  exact ⟨Nat.mod_eq_of_lt (by omega), Nat.mod_eq_of_lt (by omega), Nat.mod_eq_of_lt (by omega), rfl,
    configWord_reserved p⟩

end Sys2Proof.Machine
end

section
/-! SUPPORT. Proofs of the statements about illegal words and pseudo-instructions (30_encoding.md). -/

namespace Sys2Proof

/-! ## A field that is read is the field of its operand -/

theorem fieldReg?_eq_some_iff {f : Nibble} {r : Reg} : fieldReg? f = some r ↔ regField r = f :=
  ⟨regField_of_fieldReg?, fun h => h ▸ fieldReg?_regField r⟩

theorem fieldSlot?_eq_some_iff {p : Params} {f : Nibble} {sb : SlotIx} :
    fieldSlot? p f = some sb ↔ slotField sb = f ∧ slotLegal p sb = true :=
  ⟨slotField_of_fieldSlot?, fun ⟨hf, hl⟩ => hf ▸ fieldSlot?_slotField hl⟩

theorem fieldVault?_eq_some_iff {p : Params} {f : Nibble} {v : VaultIx} :
    fieldVault? p f = some v ↔ vaultField v = f ∧ vaultLegal p v = true :=
  ⟨vaultField_of_fieldVault?, fun ⟨hf, hl⟩ => hf ▸ fieldVault?_vaultField hl⟩

theorem fieldKeySrc?_eq_some_iff {p : Params} {f : Nibble} {ks : KeySrc} :
    fieldKeySrc? p f = some ks ↔ keySrcField ks = f ∧ keySrcLegal p ks = true :=
  ⟨keySrcField_of_fieldKeySrc?, fun ⟨hf, hl⟩ => hf ▸ fieldKeySrc?_keySrcField hl⟩

theorem csrOf?_eq_some_iff {n : BitVec 16} {c : Csr} : csrOf? n = some c ↔ csrNumber c = n :=
  ⟨csrNumber_of_csrOf?, fun h => h ▸ csrOf?_csrNumber c⟩

/-! ## The fields of a format -/

/-- Format I rebuilds fields whose `b` is 0 from their own immediate. -/
theorem formatI_fieldsImm16 (o : Opcode) (a c d : Nibble) (low : Byte) :
    formatI o a (fieldsImm16 ⟨opcodeByte o, a, 0#4, c, d, low⟩) = ⟨opcodeByte o, a, 0#4, c, d, low⟩ := by
  obtain ⟨hc, hd, hlow⟩ := formatI_of_fieldsImm16 ⟨opcodeByte o, a, 0#4, c, d, low⟩
  simp only [formatI, hc, hd, hlow]

/-- Format I with a byte immediate leaves `c` and `d` zero. -/
theorem formatI_append_byte (o : Opcode) (a : Nibble) (low : Byte) :
    formatI o a (0#8 ++ low) = ⟨opcodeByte o, a, 0#4, 0#4, 0#4, low⟩ := by
  obtain ⟨hc, hd, hlow⟩ := formatI_byte low
  simp only [formatI, hc, hd, hlow]

/-! ## Every accepted word is the word of its command -/

/-- Steps 2 and 3 of 30_encoding.md R50 lose nothing: the command they give has the fields it was read from, and legal
operands. -/
theorem encodeFields_of_operands? {p : Params} {o : Opcode} {f : Fields} {i : Instr}
    (ho : opcodeByte o = f.op) (hz : unusedZero o f = true) (h : operands? p o f = some i) :
    encodeFields i = f ∧ i.wellFormed p = true := by
  obtain ⟨op, a, b, c, d, low⟩ := f
  obtain rfl : opcodeByte o = op := ho
  cases o
  all_goals
    simp only [unusedZero, Bool.and_eq_true, beq_iff_eq, and_assoc] at hz
    simp only [operands?, Option.bind_eq_some_iff, Option.map_eq_some_iff, Option.some.injEq,
      fieldReg?_eq_some_iff, fieldSlot?_eq_some_iff, fieldVault?_eq_some_iff, fieldKeySrc?_eq_some_iff,
      csrOf?_eq_some_iff] at h
  case nop =>
    obtain ⟨rfl, rfl, rfl, rfl, rfl⟩ := hz
    obtain rfl := h
    exact ⟨rfl, rfl⟩
  case li | lih =>
    obtain rfl := hz
    obtain ⟨rd, rfl, rfl⟩ := h
    exact ⟨formatI_fieldsImm16 _ _ _ _ _, rfl⟩
  case rdc =>
    obtain ⟨rfl, rfl⟩ := hz
    obtain ⟨csr, hcsr, rfl⟩ := h
    exact ⟨(congrArg (formatI .rdc 0#4) hcsr).trans (formatI_fieldsImm16 _ _ _ _ _), rfl⟩
  case stb =>
    obtain ⟨rfl, rfl, rfl⟩ := hz
    obtain ⟨ra, rfl, rfl⟩ := h
    exact ⟨formatI_append_byte _ _ _, rfl⟩
  case sbrel =>
    obtain ⟨rfl, rfl, rfl⟩ := hz
    obtain ⟨sb, ⟨rfl, hl⟩, rfl⟩ := h
    exact ⟨formatI_append_byte _ _ _, hl⟩
  case getr | ldb =>
    obtain ⟨rfl, rfl, rfl, rfl⟩ := hz
    obtain ⟨r, rfl, rfl⟩ := h
    exact ⟨rfl, rfl⟩
  case stw | ldw | cfgsbox | cfgsync =>
    obtain ⟨rfl, rfl, rfl⟩ := hz
    obtain ⟨r, rfl, q, rfl, rfl⟩ := h
    exact ⟨rfl, rfl⟩
  case xform =>
    obtain rfl := hz
    obtain ⟨rd, rfl, rs, rfl, rn, rfl, ks, ⟨rfl, hl⟩, rfl⟩ := h
    exact ⟨rfl, hl⟩
  case sbld =>
    obtain ⟨rfl, rfl⟩ := hz
    obtain ⟨sb, ⟨rfl, hl⟩, ra, rfl, rn, rfl, rfl⟩ := h
    exact ⟨rfl, hl⟩
  case sbrand | sblen | gacq | grel | vdel =>
    obtain ⟨rfl, rfl, rfl, rfl⟩ := hz
    obtain ⟨n, ⟨rfl, hl⟩, rfl⟩ := h
    exact ⟨rfl, hl⟩
  case sbst | vrd =>
    obtain ⟨rfl, rfl, rfl⟩ := hz
    obtain ⟨n, ⟨rfl, hl⟩, ra, rfl, rfl⟩ := h
    exact ⟨rfl, hl⟩
  case vnew =>
    obtain ⟨rfl, rfl, rfl⟩ := hz
    obtain ⟨v, ⟨rfl, hv⟩, sb, ⟨rfl, hsb⟩, rfl⟩ := h
    exact ⟨rfl, Bool.and_eq_true_iff.mpr ⟨hv, hsb⟩⟩

/-- What a successful decoding by fields went through: the three steps of 30_encoding.md R50. -/
theorem decodeFields_eq_ok {p : Params} {f : Fields} {i : Instr} (h : decodeFields p f = .ok i) :
    ∃ o, opcodeOf? f.op = some o ∧ unusedZero o f = true ∧ operands? p o f = some i := by
  unfold decodeFields at h
  split at h
  · cases h
  · next o ho =>
    split at h
    · next hz =>
      split at h
      · cases h
      · next hops => exact ⟨o, ho, hz, by rw [hops, Except.ok.inj h]⟩
    · cases h

/-- A word that decodes is the word of the command it decodes to, whose fields are legal (30_encoding.md R50). -/
theorem encode_of_decode_eq_ok {p : Params} {w : Word} {i : Instr} (h : decode p w = .ok i) :
    encode i = w ∧ i.wellFormed p = true := by
  obtain ⟨o, ho, hz, hops⟩ := decodeFields_eq_ok h
  obtain ⟨hf, hl⟩ := encodeFields_of_operands? (opcodeByte_of_opcodeOf? ho) hz hops
  exact ⟨(congrArg fieldsWord hf).trans (fieldsWord_wordFields w), hl⟩

end Sys2Proof

namespace Sys2Proof.Machine

/-! ## Loading 32 bits in two halves -/

/-- The upper half put before what loading the lower half left below it is the whole word. -/
theorem append_extract_setWidth (w : Word) :
    w.extractLsb' 16 16 ++ ((w.extractLsb' 0 16).setWidth 32).extractLsb' 0 16 = w := by
  have hlow : ((w.extractLsb' 0 16).setWidth 32).extractLsb' 0 16 = w.extractLsb' 0 16 := by
    rw [BitVec.extractLsb'_setWidth_of_le (by omega), extract_whole]
  rw [hlow]
  exact (append_extract w 0 16 16).trans (extract_whole w)

/-! ## The obligations -/

/-- Settles O4: a word that decoded would be the word of a legal command, so this one is rejected, and a rejected word
is answered with `IllegalCommand`. -/
theorem illegalWordChangesOnlyLastErr : Obligations.IllegalWordChangesOnlyLastErr := by
  intro s w rest hport hillegal
  cases hd : decode s.params w with
  | ok i =>
    obtain ⟨hw, hl⟩ := encode_of_decode_eq_ok hd
    exact absurd hw (hillegal i hl)
  | error x => exact (step_command hport).trans (runWord_of_decode_error hd)

/-- Settles O21: `LI` leaves the lower half in the register, and `LIH` puts the upper half before it. -/
theorem loadImmediate32Expansion : Obligations.LoadImmediate32Expansion := by
  refine ⟨fun sb => rfl, fun rd imm s => ⟨rfl, _, _, _, _, rfl, rfl, rfl, ?_, fun r hr => ?_⟩⟩
  · simp only [State.reg_complete, State.reg_setReg, ↓reduceIte, append_extract_setWidth]
  · simp only [State.reg_complete, State.reg_setReg, if_neg hr.symm]

end Sys2Proof.Machine
end

section
/-! SUPPORT. Proofs of the statements about the cipher datapath (40_cipher_datapath.md). -/

namespace Sys2Proof.Machine

/-! ## Substitution and round function -/

/-- R57: nibble `i` of `Subst(w)` is the piece that group `i` gives. -/
theorem nibble_subst (t : SBox) (w : Word) (i : Fin 8) :
    nibble (subst t w) i.val = sboxEntry t i (nibble w i.val) := by
  fin_cases i <;>
    simp (disch := omega) only [nibble, subst, extract_append_low, extract_append_high, extract_whole, Nat.reduceMul,
      Nat.reduceSub, Fin.reduceFinMk]

/-- A rotation moves bit `j` by the amount, around the word (00_scope.md section 8). -/
theorem rol32_getLsbD (w : Word) {k j : Nat} (hk : k ≤ 32) (hj : j < 32) :
    (rol32 w k).getLsbD ((j + k) % 32) = w.getLsbD j := by
  simp only [rol32, BitVec.getLsbD_or, BitVec.getLsbD_shiftLeft, BitVec.getLsbD_ushiftRight]
  rcases Nat.lt_or_ge (j + k) 32 with hlow | hwrap
  · have hout : w.getLsbD (32 - k + (j + k)) = false := BitVec.getLsbD_of_ge _ _ (by omega)
    simp [Nat.mod_eq_of_lt hlow, hlow, hout]
  · have hidx : (j + k) % 32 = j + k - 32 := by omega
    have hback : 32 - k + (j + k - 32) = j := by omega
    have hshift : j + k - 32 < k := by omega
    simp [hidx, hback, hshift]

/-! ## Key words -/

/-- Byte `j` of a little-endian word is the `j`-th of its bytes. -/
theorem le32_extract (b : Fin 4 → Byte) (j : Fin 4) :
    (le32 (b 0) (b 1) (b 2) (b 3)).extractLsb' (8 * j.val) 8 = b j := by
  fin_cases j <;>
    simp (disch := omega) only [le32, extract_append_low, extract_append_high, extract_whole, Nat.reduceMul,
      Nat.reduceSub, Fin.reduceFinMk]

/-! ## The carry-aware addition -/

/-- Each of the two comparisons of `CAdd` holds exactly when the sum does not fit in a word
(40_cipher_datapath.md R64). -/
theorem cAdd_carry_iff (x c : Word) : (x + c < x ∨ x + c < c) ↔ 2 ^ 32 ≤ x.toNat + c.toNat := by
  simp only [BitVec.lt_def, BitVec.toNat_add]
  omega

theorem cAdd_toNat (x c : Word) : (cAdd x c).toNat =
    if x.toNat + c.toNat < 2 ^ 32 then x.toNat + c.toNat else x.toNat + c.toNat - 2 ^ 32 + 1 := by
  simp only [cAdd, cAdd_carry_iff]
  split
  · next h => simp only [if_neg (Nat.not_lt.mpr h), BitVec.toNat_add, BitVec.toNat_ofNat]; omega
  · next h => rw [if_pos (by omega), BitVec.toNat_add_of_lt (by omega)]

/-! ## The keystream -/

theorem keystreamByte_low (ga gb : Word) {j : Nat} (hj : j < 4) :
    keystreamByte (ga, gb) j = ga.extractLsb' (8 * j) 8 :=
  extract_append_low gb ga (8 * j) 8 (by omega)

theorem keystreamByte_high (ga gb : Word) (j : Nat) :
    keystreamByte (ga, gb) (4 + j) = gb.extractLsb' (8 * j) 8 := by
  have hoff : 8 * (4 + j) - 32 = 8 * j := by omega
  rw [keystreamByte, extract_append_high _ _ _ _ (by omega), hoff]

/-- Byte `j` of the loop's output: the group it lies in has advanced the counter pair `j / 8 + 1` times. -/
theorem cryptGroups_getElem? (t : SBox) (n : Nat) (e : Engine) (src : List Byte) (hn : src.length ≤ 8 * n)
    (j : Nat) (hj : j < src.length) :
    (cryptGroups t n e src).1[j]? = some (src[j] ^^^
      keystreamByte (cipherBlock t e.k (advance^[j / 8 + 1] e.counter)) (j % 8)) := by
  induction n generalizing e src j with
  | zero => omega
  | succ n ih =>
    simp only [cryptGroups, Engine.group_nextGroup]
    have hlen := combineGroup_length (cipherBlock t e.k (advance e.counter)) (src.take 8)
    rw [List.length_take] at hlen
    rcases Nat.lt_or_ge j 8 with hfirst | hlater
    · rw [List.getElem?_append_left (by omega), List.getElem?_eq_getElem (by omega), combineGroup_getElem,
        List.getElem_take, Nat.div_eq_of_lt hfirst, Nat.mod_eq_of_lt hfirst, Nat.zero_add, Function.iterate_one]
    · have hgroup : j / 8 = (j - 8) / 8 + 1 := by omega
      have hplace : j % 8 = (j - 8) % 8 := by omega
      have hrest : (src.drop 8).length = src.length - 8 := List.length_drop
      have hsrc : (src.drop 8)[j - 8]'(by omega) = src[j] := by
        simp only [List.getElem_drop, Nat.add_sub_cancel' hlater]
      rw [List.getElem?_append_right (by omega), hlen, Nat.min_eq_left (by omega),
        ih _ _ (by omega) _ (by omega), hsrc, Engine.k_nextGroup, Engine.counter_nextGroup,
        ← Function.iterate_succ_apply, hgroup, hplace]

/-! ## The obligations -/

/-- Settles O42: the bytes of the transform are those of its loop, started from the primed counter pair. -/
theorem transformIsCounterKeystream : Obligations.TransformIsCounterKeystream := by
  refine ⟨fun ga gb j hj => ⟨keystreamByte_low ga gb hj, keystreamByte_high ga gb j⟩,
    fun t sync key src => ⟨cryptGroups_length t _ _ src (groupCount_covers _), fun j hj => ?_⟩⟩
  have hbyte := cryptGroups_getElem? t _ (Engine.zero.start t sync key) src (groupCount_covers _) j hj
  rwa [Engine.k_start, Engine.counter_start] at hbyte

/-- Settles O35: the pieces `subst` appends are the nibbles of its result. -/
theorem substIsNibblewise : Obligations.SubstIsNibblewise := nibble_subst

/-- Settles O36: the round function is the substitution rotated by 11. -/
theorem roundFunctionRotatesBy11 : Obligations.RoundFunctionRotatesBy11 :=
  fun t w _ hj => rol32_getLsbD (subst t w) (by omega) hj

/-- Settles O39: a key word is the little-endian word of its four key bytes. -/
theorem keyScheduleOrder : Obligations.KeyScheduleOrder := by
  refine ⟨fun key i j => ?_, fun r hr => if_pos (by omega), fun r hr _ => if_neg (by omega)⟩
  rw [keyWords, Vector.getElem_ofFn]
  exact le32_extract (fun j => key[4 * i.val + j.val]'(by simp only [Config.keySize]; omega)) j

/-- Settles O40: the sequence is the pair after the first `r` rounds, and round 31 uses `K[KIDX(31)]`, which is
`K[0]`. -/
theorem blockIsThirtyTwoRounds : Obligations.BlockIsThirtyTwoRounds :=
  fun t k p => ⟨fun r => cipherRounds t k r p, rfl, fun _ _ => rfl, rfl⟩

/-- Settles O41: `CAdd` adds its carry exactly where the sum does not fit, so adding it never wraps. -/
theorem carryAwareAddition : Obligations.CarryAwareAddition :=
  ⟨cAdd_toNat, fun _ _ => ⟨rfl, BitVec.toNat_add _ _⟩⟩

end Sys2Proof.Machine
end

section
/-! SUPPORT. Proofs of the statements about the host commands (41_host_commands.md), after the facts that every command
family shares: the words of an opcode, the layout of a command's word, what a move of data leaves alone. -/

namespace Sys2Proof

/-! ## The opcode of a word -/

/-- Bits 31:24 of a command's word are its opcode, for every command (30_encoding.md R42). -/
theorem encode_opcode (i : Instr) : (encode i).extractLsb' 24 8 = opcodeByte (instrOpcode i) := by
  cases i <;> exact fieldsWord_op _

theorem opcodeByte_injective : Function.Injective opcodeByte := fun o o' h =>
  Option.some.inj ((opcodeOf?_opcodeByte o).symm.trans (h ▸ opcodeOf?_opcodeByte o'))

/-! ## The layout of a word -/

/-- Below the opcode and the first two fields of a word stand its 16 immediate bits (30_encoding.md R42, R44). -/
theorem fieldsWord_eq_append_imm16 (f : Fields) :
    fieldsWord f = (f.op ++ f.a ++ f.b ++ fieldsImm16 f : BitVec 32) := by
  simp only [fieldsWord, fieldsImm16, BitVec.append_assoc, BitVec.cast_eq]

theorem fieldsWord_formatI (o : Opcode) (a : Nibble) (imm : BitVec 16) :
    fieldsWord (formatI o a imm) = (opcodeByte o ++ a ++ 0#4 ++ imm : BitVec 32) := by
  rw [fieldsWord_eq_append_imm16, fieldsImm16_formatI]
  rfl

/-- The word of a command with a byte immediate. -/
theorem fieldsWord_formatI_byte (o : Opcode) (a : Nibble) (imm : Byte) :
    fieldsWord (formatI o a (0#8 ++ imm)) = (opcodeByte o ++ a ++ 0#12 ++ imm : BitVec 32) := by
  have hzero : (0#12 : BitVec 12) = 0#4 ++ 0#8 := by decide
  rw [fieldsWord_formatI, hzero]
  simp only [BitVec.append_assoc, BitVec.cast_eq]

/-- The word of a command with two indices. -/
theorem fieldsWord_formatR_two (o : Opcode) (a b : Nibble) :
    fieldsWord (formatR o a b 0#4 0#4) = (opcodeByte o ++ a ++ b ++ 0#16 : BitVec 32) := by
  have himm : fieldsImm16 (formatR o a b 0#4 0#4) = 0#16 := by simp only [fieldsImm16, formatR, BitVec.zero_append_zero]
  rw [fieldsWord_eq_append_imm16, himm]
  rfl

/-- The word of a command with one index. -/
theorem fieldsWord_formatR_one (o : Opcode) (a : Nibble) :
    fieldsWord (formatR o a 0#4 0#4 0#4) = (opcodeByte o ++ a ++ 0#20 : BitVec 32) := by
  have hzero : (0#20 : BitVec 20) = 0#4 ++ 0#16 := by decide
  rw [fieldsWord_formatR_two, hzero]
  simp only [BitVec.append_assoc, BitVec.cast_eq]

/-- The word of `RDC` has no first index, so its opcode is followed by eight zeros. -/
theorem encode_rdc (c : Csr) : encode (.rdc c) = (0x04#8 ++ 0#8 ++ csrNumber c : BitVec 32) := by
  cases c <;> rfl

end Sys2Proof

namespace Sys2Proof.Machine

/-! ## The words of an opcode -/

/-- A word of opcode `o` can only be the word of a command of opcode `o`; where these are all in `mine` and the word is
of none of them, it is the word of no command. -/
theorem otherWordsAreIllegal_of_opcode (o : Opcode) {mine : Instr → Prop}
    (hmine : ∀ i, instrOpcode i = o → mine i) : OtherWordsAreIllegal (opcodeByte o) mine := by
  intro s w rest hport hop hother
  refine illegalWordChangesOnlyLastErr s w rest hport fun i hl hw => hother i (hmine i ?_) hl hw
  exact opcodeByte_injective ((encode_opcode i).symm.trans (hw ▸ hop))

/-! ## What a move of data leaves alone -/

/-- Writing one register in the register file leaves that value in it. -/
theorem State.reg_of_regs_set {s t : State} {r : Reg} {v : Word} (h : t.regs = s.regs.set r.val v) : t.reg r = v :=
  (State.reg_congr (s := s.setReg r v) h r).trans (by rw [State.reg_setReg, if_pos rfl])

/-- Writing one register in the register file leaves every other one alone. -/
theorem State.sameRegsBut_of_regs_set {s t : State} {r : Reg} {v : Word} (h : t.regs = s.regs.set r.val v) :
    SameRegsBut s t r := fun q hq =>
  (State.reg_congr (s := s.setReg r v) h q).trans (by rw [State.reg_setReg, if_neg hq.symm])

/-- A command that ends having changed nothing but registers and `XMEM` has kept the slots, the vaults, the random
source and the engine's side. -/
theorem State.same_of_eq_regs_xmem {s t : State} {regs : Vector Word 8} {xmem : Memory} {e : ErrCode} {v : Word}
    (h : t = State.complete { s with regs := regs, xmem := xmem } e v) :
    SameSlots s t ∧ SameVaults s t ∧ SameRng s t ∧ SameEngineSide s t := by
  subst h
  exact ⟨rfl, rfl, ⟨rfl, rfl⟩, ⟨⟨rfl, rfl, rfl⟩, rfl, ⟨rfl, rfl, rfl⟩⟩⟩

/-! ## Bytes of a word -/

theorem wordBytes_getElem (w : Word) {k : Nat} (hk : k < 4) : (wordBytes w)[k] = w.extractLsb' (8 * k) 8 := by
  match k, hk with
  | 0, _ | 1, _ | 2, _ | 3, _ => rfl

/-- 20_memory.md R33: a word store puts byte `k` of the word at the `k`-th address. -/
theorem State.xmemByte_storeWord_inside (s : State) (a : Nat) (w : Word) {k : Nat} (hk : k < 4) :
    (s.storeWord a w).xmemByte (a + k) = w.extractLsb' (8 * k) 8 :=
  (State.xmemByte_storeBytes_inside s a (wordBytes w) hk).trans (wordBytes_getElem w hk)

/-- 20_memory.md R33: byte `k` of a loaded word is the byte at the `k`-th address. -/
theorem State.loadWord_extract (s : State) (a : Nat) {k : Nat} (hk : k < 4) :
    (s.loadWord a).extractLsb' (8 * k) 8 = s.xmemByte (a + k) :=
  le32_extract (fun j => s.xmemByte (a + j.val)) ⟨k, hk⟩

/-! ## The obligations

In each frame, what the command did to the register file and to `XMEM` is read off the state it leaves by `rfl`. -/

/-- Settles O18: the meaning of `NOP` is the response alone. -/
theorem nopOnlyClearsLastErr : Obligations.NopOnlyClearsLastErr :=
  ⟨otherWordsAreIllegal_of_opcode .nop fun | .nop, _ => rfl, rfl, fun _ => rfl⟩

/-- Settles O19: `LI` writes its immediate zero-extended, and 16 bits fit in a word. -/
theorem liLoadsZeroExtended : Obligations.LiLoadsZeroExtended := by
  refine ⟨otherWordsAreIllegal_of_opcode .li fun | .li rd imm, _ => ⟨rd, imm, rfl⟩,
    fun rd imm => ⟨fieldsWord_formatI _ _ _, fun s => ?_⟩⟩
  refine ⟨_, rfl, ?_, State.complete_answers _ _ _, State.sameRegsBut_of_regs_set rfl, fun _ => rfl,
    State.same_of_eq_regs_xmem rfl⟩
  rw [State.reg_complete, State.reg_setReg, if_pos rfl, BitVec.toNat_setWidth_of_le (by omega)]

/-- Settles O20: `LIH` puts its immediate before the low half of the old register. -/
theorem lihLoadsTheHighHalf : Obligations.LihLoadsTheHighHalf := by
  refine ⟨otherWordsAreIllegal_of_opcode .lih fun | .lih rd imm, _ => ⟨rd, imm, rfl⟩,
    fun rd imm => ⟨fieldsWord_formatI _ _ _, fun s => ?_⟩⟩
  refine ⟨_, rfl, ?_, ?_, State.complete_answers _ _ _, State.sameRegsBut_of_regs_set rfl, fun _ => rfl,
    State.same_of_eq_regs_xmem rfl⟩
  all_goals rw [State.reg_complete, State.reg_setReg, if_pos rfl]
  · rw [extract_append_high _ _ 16 16 (by omega), extract_whole]
  · rw [extract_append_low _ _ 0 16 (by omega), extract_whole]

/-- Settles O22: the meaning of `GETR` is the response with the register. -/
theorem getrAnswersTheRegister : Obligations.GetrAnswersTheRegister :=
  ⟨otherWordsAreIllegal_of_opcode .getr fun | .getr rs, _ => ⟨rs, rfl⟩,
    fun _ => ⟨fieldsWord_formatR_one _ _, fun _ => rfl⟩⟩

/-- Settles O23: the meaning of `RDC` is the response with the control register of the state before. -/
theorem rdcAnswersTheControlRegister : Obligations.RdcAnswersTheControlRegister := by
  refine ⟨otherWordsAreIllegal_of_opcode .rdc fun | .rdc c, _ => ⟨c, rfl⟩, encode_rdc,
    ⟨rfl, rfl, rfl, rfl, rfl, rfl⟩, fun c s => ⟨s.csr c, rfl, ?_⟩⟩
  refine ⟨?_, ?_, ?_, ?_, ?_, ?_⟩ <;> rintro rfl <;> rfl

/-- Settles O27: a store of one byte, then a step of the register. -/
theorem stbStoresAByteAndSteps : Obligations.StbStoresAByteAndSteps := by
  refine ⟨otherWordsAreIllegal_of_opcode .stb fun | .stb ra imm, _ => ⟨ra, imm, rfl⟩,
    fun ra imm => ⟨fieldsWord_formatI_byte _ _ _, fun s => ⟨fun hout => if_neg hout, fun hin => ?_⟩⟩⟩
  have hrun : exec (.stb ra imm) s =
      .next (((s.storeBytes (s.reg ra).toNat [imm]).bumpReg ra).complete .success 0#32) := if_pos hin
  exact ⟨_, hrun, State.xmemByte_storeBytes_inside s _ [imm] (j := 0) Nat.one_pos, State.reg_of_regs_set rfl,
    State.complete_answers _ _ _, State.sameRegsBut_of_regs_set rfl,
    fun _ hx => State.xmemByte_storeBytes_outside s _ [imm] hx, State.same_of_eq_regs_xmem rfl⟩

/-- Settles O28: the byte is answered and the register stepped; `XMEM` is only read. -/
theorem ldbAnswersAByteAndSteps : Obligations.LdbAnswersAByteAndSteps := by
  refine ⟨otherWordsAreIllegal_of_opcode .ldb fun | .ldb ra, _ => ⟨ra, rfl⟩,
    fun ra => ⟨fieldsWord_formatR_one _ _, fun s => ⟨fun hout => if_neg hout, fun hin => ?_⟩⟩⟩
  have hrun : exec (.ldb ra) s =
      .next ((s.bumpReg ra).complete .success ((s.xmemByte (s.reg ra).toNat).setWidth 32)) := if_pos hin
  exact ⟨_, hrun, State.complete_answers _ _ _, State.reg_of_regs_set rfl, State.sameRegsBut_of_regs_set rfl,
    fun _ => rfl, State.same_of_eq_regs_xmem rfl⟩

/-- Settles O29: the four bytes of the register are stored in order; no register is written. -/
theorem stwStoresAWordLittleEndian : Obligations.StwStoresAWordLittleEndian := by
  refine ⟨otherWordsAreIllegal_of_opcode .stw fun | .stw ra rb, _ => ⟨ra, rb, rfl⟩,
    fun ra rb => ⟨fieldsWord_formatR_two _ _ _, fun s => ⟨fun hout => if_neg hout, fun hin => ?_⟩⟩⟩
  have hrun : exec (.stw ra rb) s =
      .next ((s.storeWord (s.reg ra).toNat (s.reg rb)).complete .success 0#32) := if_pos hin
  exact ⟨_, hrun, fun _ hk => State.xmemByte_storeWord_inside s _ _ hk, State.complete_answers _ _ _,
    fun _ => rfl, fun _ hx => State.xmemByte_storeBytes_outside s _ (wordBytes (s.reg rb)) hx,
    State.same_of_eq_regs_xmem rfl⟩

/-- Settles O30: the word is read at the old address, then written to the register and answered. -/
theorem ldwLoadsAWordLittleEndian : Obligations.LdwLoadsAWordLittleEndian := by
  refine ⟨otherWordsAreIllegal_of_opcode .ldw fun | .ldw rd ra, _ => ⟨rd, ra, rfl⟩,
    fun rd ra => ⟨fieldsWord_formatR_two _ _ _, fun s => ⟨fun hout => if_neg hout, fun hin => ?_⟩⟩⟩
  have hrun : exec (.ldw rd ra) s = .next ((s.setReg rd (s.loadWord (s.reg ra).toNat)).complete .success
      (s.loadWord (s.reg ra).toNat)) := if_pos hin
  exact ⟨_, _, hrun, fun _ hk => State.loadWord_extract s _ hk, State.reg_of_regs_set rfl,
    State.complete_answers _ _ _, State.sameRegsBut_of_regs_set rfl, fun _ => rfl,
    State.same_of_eq_regs_xmem rfl⟩

end Sys2Proof.Machine
end

section
/-! SUPPORT. Proofs of the statements about the cipher commands (42_cipher_commands.md), after what each of them does to
the state: the table that 128 bytes give, the key that a key source gives, the transform of a range of `XMEM`. -/

namespace Sys2Proof

/-- The word of a command with four indices. -/
theorem fieldsWord_formatR_four (o : Opcode) (a b c d : Nibble) :
    fieldsWord (formatR o a b c d) = (opcodeByte o ++ a ++ b ++ c ++ d ++ 0#8 : BitVec 32) := rfl

end Sys2Proof

namespace Sys2Proof.Machine

/-! ## The cipher's configuration -/

/-- R82: a table source is malformed when one of its 128 bytes does not fit in a nibble. -/
theorem State.tableMalformed_iff (s : State) (a : Nat) :
    s.tableMalformed a = true ↔ ∃ k, k < 128 ∧ 15 < (s.xmemByte (a + k)).toNat := by
  simp only [State.tableMalformed, List.any_eq_true, List.mem_range, decide_eq_true_eq]

/-- R82: where the byte of an entry fits in a nibble, the entry is that byte. -/
theorem State.sboxEntry_tableAt (s : State) (a : Nat) (g : Fin 8) (n : Nibble)
    (hbyte : (s.xmemByte (a + (16 * g.val + n.toNat))).toNat ≤ 15) :
    (sboxEntry (s.tableAt a) g n).toNat = (s.xmemByte (a + (16 * g.val + n.toNat))).toNat := by
  simp only [sboxEntry, State.tableAt, Vector.getElem_ofFn, BitVec.toNat_setWidth]
  omega

/-- A command that ends having changed nothing but the sync vector and the table has kept everything else. -/
theorem State.same_of_eq_cipherConfig {s t : State} {sync0 sync1 : Word} {sbox : SBox} {e : ErrCode} {v : Word}
    (h : t = State.complete { s with sync0 := sync0, sync1 := sync1, sbox := sbox } e v) :
    SameEngine s t ∧ SameHost s t ∧ Answers t e v ∧ SameRegs s t ∧ SameXmem s t ∧ SameSlots s t ∧
      SameVaults s t ∧ SameRng s t := by
  subst h
  exact ⟨rfl, ⟨rfl, rfl, rfl⟩, State.complete_answers _ _ _, fun _ => rfl, fun _ => rfl, rfl, rfl, rfl, rfl⟩

/-! ## The key source -/

theorem State.keyOf_slot_free {s : State} {b : SlotIx} {sl : Slot} (hsl : s.slot? b = some sl)
    (hfree : sl.valid = false) : s.keyOf (.slot b) = .error .stateError := by
  simp only [State.keyOf, hsl, if_pos hfree]

theorem State.keyOf_slot_wrong_length {s : State} {b : SlotIx} {sl : Slot} (hsl : s.slot? b = some sl)
    (hlive : sl.valid = true) (hlen : sl.len ≠ 32) : s.keyOf (.slot b) = .error .lengthError := by
  simp only [State.keyOf, hsl, hlive, Bool.true_eq_false, if_false, if_pos hlen]

theorem State.keyOf_slot_key {s : State} {b : SlotIx} {sl : Slot} (hsl : s.slot? b = some sl)
    (hlive : sl.valid = true) (hlen : sl.len = 32) : s.keyOf (.slot b) = .ok sl.key := by
  simp only [State.keyOf, hsl, hlive, Bool.true_eq_false, if_false, if_neg (not_not.mpr hlen)]

theorem State.keyOf_vault_closed {s : State} {v : VaultIx} {x : Vault} (hx : s.vault? v = some x)
    (hclosed : x.valid = false ∨ x.guard = false) : s.keyOf (.vault v) = .error .stateError := by
  simp only [State.keyOf, hx, if_pos hclosed]

theorem State.keyOf_vault_open {s : State} {v : VaultIx} {x : Vault} (hx : s.vault? v = some x)
    (hvalid : x.valid = true) (hguard : x.guard = true) : s.keyOf (.vault v) = .ok x.data := by
  simp only [State.keyOf, hx, hvalid, hguard, Bool.true_eq_false, or_self, if_false]

/-- A key with the bytes of a slot is the slot's key. -/
theorem Slot.eq_key_of_bytes {sl : Slot} {key : Key} (h : ∀ i : Fin 32, key[i.val] = sl.byte i.val) : key = sl.key :=
  Vector.ext fun i hi => (h ⟨i, hi⟩).trans (Slot.key_getElem sl i hi).symm

/-! ## The transform of a range of `XMEM` -/

theorem Engine.transform_length (t : SBox) (sync : Word × Word) (key : Key) (src : List Byte) (e : Engine) :
    (e.transform t sync key src).1.length = src.length :=
  cryptGroups_length t _ _ src (groupCount_covers _)

/-- R84, 20_memory.md R37: the destination holds the transform of what the source held before. -/
theorem State.xmemBytes_transformXmem (s : State) (key : Key) (d c n : Nat) :
    (s.transformXmem key d c n).xmemBytes d n = transform s.sbox (s.sync0, s.sync1) key (s.xmemBytes c n) := by
  have hlen := (Engine.transform_length s.sbox (s.sync0, s.sync1) key (s.xmemBytes c n) s.engine).trans
    (s.xmemBytes_length c n)
  have hread := State.xmemBytes_storeBytes s d
    (s.engine.transform s.sbox (s.sync0, s.sync1) key (s.xmemBytes c n)).1
  rw [hlen] at hread
  exact hread.trans (Engine.transform_fst _ _ _ _ _)

/-- R84: no byte outside the destination is written. -/
theorem State.xmemByte_transformXmem_outside (s : State) (key : Key) (d c n : Nat) {x : Nat}
    (hx : x < d ∨ d + n ≤ x) : (s.transformXmem key d c n).xmemByte x = s.xmemByte x := by
  rw [State.xmemByte_transformXmem]
  exact State.xmemByte_storeBytes_outside _ _ _ (by rwa [Engine.transform_length, State.xmemBytes_length])

/-! ## The ends of `XFORM` -/

section

variable {s : State} {rd rs rn : Reg} {ks : KeySrc} {key : Key}

/-- R84: a key source that gives no key ends the command before any address is looked at. -/
theorem fails_xform_of_keyOf_error {e : ErrCode} (hkey : s.keyOf ks = .error e) : Fails (.xform rd rs rn ks) s e := by
  simp only [Fails, exec, execXform, hkey]
  rfl

theorem fails_xform_of_out_of_range (hkey : s.keyOf ks = .ok key)
    (hout : ¬ s.InRange (s.reg rs) (s.reg rn).toNat ∨ ¬ s.InRange (s.reg rd) (s.reg rn).toNat) :
    Fails (.xform rd rs rn ks) s .addressError := by
  simp only [Fails, exec, execXform, hkey]
  exact if_pos hout

theorem fails_xform_of_overlap (hkey : s.keyOf ks = .ok key) (hsrc : s.InRange (s.reg rs) (s.reg rn).toNat)
    (hdst : s.InRange (s.reg rd) (s.reg rn).toNat) (hover : Overlap (s.reg rd) (s.reg rs) (s.reg rn).toNat) :
    Fails (.xform rd rs rn ks) s .addressError := by
  simp only [Fails, exec, execXform, hkey]
  exact (if_neg (not_or.mpr ⟨not_not.mpr hsrc, not_not.mpr hdst⟩)).trans (if_pos hover)

/-- R84: with a key, both ranges in `XMEM` and no partial overlap, the command completes. -/
theorem exec_xform_of_key (hkey : s.keyOf ks = .ok key) (hsrc : s.InRange (s.reg rs) (s.reg rn).toNat)
    (hdst : s.InRange (s.reg rd) (s.reg rn).toNat) (hapart : ¬ Overlap (s.reg rd) (s.reg rs) (s.reg rn).toNat) :
    exec (.xform rd rs rn ks) s = .next ((s.transformXmem key (s.reg rd).toNat (s.reg rs).toNat
      (s.reg rn).toNat).complete .success 0#32) := by
  simp only [exec, execXform, hkey]
  exact (if_neg (not_or.mpr ⟨not_not.mpr hsrc, not_not.mpr hdst⟩)).trans (if_neg hapart)

end

/-! ## The obligations -/

/-- Settles O31: the three checks fail in their order; past them every byte fits in a nibble and is its entry. -/
theorem cfgsboxReplacesTheWholeTable : Obligations.CfgsboxReplacesTheWholeTable := by
  refine ⟨otherWordsAreIllegal_of_opcode .cfgsbox fun | .cfgsbox ra rn, _ => ⟨ra, rn, rfl⟩,
    fun ra rn => ⟨fieldsWord_formatR_two _ _ _, fun s => ⟨fun hshort => if_pos hshort, fun hfull hout => ?_,
      fun hfull hin hbad => ?_, fun hfull hin hgood => ?_⟩⟩⟩
  · exact (if_neg (Nat.not_lt.mpr hfull)).trans (if_pos hout)
  · exact (if_neg (Nat.not_lt.mpr hfull)).trans
      ((if_neg (not_not.mpr hin)).trans (if_pos ((s.tableMalformed_iff _).mpr hbad)))
  · have hwell : ¬ s.tableMalformed (s.reg ra).toNat = true := fun hbad => by
      obtain ⟨k, hk, hbyte⟩ := (s.tableMalformed_iff _).mp hbad
      exact absurd (hgood k hk) (Nat.not_le.mpr hbyte)
    have hrun : exec (.cfgsbox ra rn) s =
        .next (State.complete { s with sbox := s.tableAt (s.reg ra).toNat } .success 0#32) :=
      (if_neg (Nat.not_lt.mpr hfull)).trans ((if_neg (not_not.mpr hin)).trans (if_neg hwell))
    exact ⟨_, hrun, fun g n => s.sboxEntry_tableAt _ g n (hgood _ (by omega)), rfl, rfl,
      State.same_of_eq_cipherConfig rfl⟩

/-- Settles O32: `CFGSYNC` has no check, so it completes from every state. -/
theorem cfgsyncSetsBothWords : Obligations.CfgsyncSetsBothWords :=
  ⟨otherWordsAreIllegal_of_opcode .cfgsync fun | .cfgsync ra rb, _ => ⟨ra, rb, rfl⟩,
    fun _ _ => ⟨fieldsWord_formatR_two _ _ _, fun _ =>
      ⟨_, rfl, rfl, rfl, rfl, State.same_of_eq_cipherConfig rfl⟩⟩⟩

/-- Settles O33: the key source decides first; a key, from a slot or a vault, then meets the checks of the two ranges,
and past them the transform is all that the command does. -/
theorem xformTransformsTheSource : Obligations.XformTransformsTheSource := by
  refine ⟨otherWordsAreIllegal_of_opcode .xform fun | .xform rd rs rn ks, _ => ⟨rd, rs, rn, ks, rfl⟩,
    fun rd rs rn ks => ⟨fieldsWord_formatR_four _ _ _ _ _, fun s => ⟨?_, ?_, ?_, fun key hsource => ?_⟩⟩⟩
  · rintro b sl rfl hsl hfree
    exact fails_xform_of_keyOf_error (State.keyOf_slot_free hsl hfree)
  · rintro b sl rfl hsl hlive hlen
    exact fails_xform_of_keyOf_error (State.keyOf_slot_wrong_length hsl hlive hlen)
  · rintro v x rfl hx hclosed
    exact fails_xform_of_keyOf_error (State.keyOf_vault_closed hx hclosed)
  · have hkey : s.keyOf ks = .ok key := by
      obtain ⟨b, sl, rfl, hsl, hlive, hlen, hbytes⟩ | ⟨v, x, rfl, hx, hvalid, hguard, rfl⟩ := hsource
      · rw [Slot.eq_key_of_bytes hbytes]
        exact State.keyOf_slot_key hsl hlive hlen
      · exact State.keyOf_vault_open hx hvalid hguard
    exact ⟨fails_xform_of_out_of_range hkey, fails_xform_of_overlap hkey, fun hsrc hdst hapart =>
      ⟨_, exec_xform_of_key hkey hsrc hdst hapart, State.xmemBytes_transformXmem _ _ _ _ _,
        fun _ hx => State.xmemByte_transformXmem_outside _ _ _ _ _ hx, rfl, State.complete_answers _ _ _,
        fun _ => rfl, ⟨rfl, rfl, rfl⟩, rfl, rfl, ⟨rfl, rfl⟩, ⟨rfl, rfl, rfl⟩⟩⟩

end Sys2Proof.Machine
end

section
/-! SUPPORT. Proofs of the statements about the secure-buffer commands (43_secure_buffer.md), after what a command that
replaces one slot leaves alone, what moves between slots, `XMEM` and the random source, and how each command can end. -/

namespace Sys2Proof

/-- The word of a command with three indices. -/
theorem fieldsWord_formatR_three (o : Opcode) (a b c : Nibble) :
    fieldsWord (formatR o a b c 0#4) = (opcodeByte o ++ a ++ b ++ c ++ 0#12 : BitVec 32) := by
  have hzero : (0#12 : BitVec 12) = 0#4 ++ 0#8 := by decide
  rw [fieldsWord_formatR_four, hzero]
  simp only [BitVec.append_assoc, BitVec.cast_eq]

end Sys2Proof

namespace Sys2Proof.Machine

/-! ## Replacing one slot -/

section

variable {s t : State} {b : SlotIx} {sl sl' : Slot}

/-- Writing one slot of the instance leaves that value in it. -/
theorem State.slot?_of_slots_set (hsl : s.slot? b = some sl) (h : t.slots = s.slots.set b.val sl') :
    t.slot? b = some sl' :=
  (congrArg (·[b.val]?) h).trans (State.slot?_setSlot_self hsl sl')

/-- Writing one slot leaves every other one alone. -/
theorem State.sameSlotsBut_of_slots_set (h : t.slots = s.slots.set b.val sl') : SameSlotsBut s t b := fun j hj =>
  (congrArg (·[j]?) h).trans (State.slots_setSlot_of_ne hj sl')

end

/-- A command that ends having only moved data between the registers, `XMEM`, the slots, the vaults and the random
source has kept the engine's side. -/
theorem State.sameEngineSide_of_eq_moved {s t : State} {regs : Vector Word 8} {xmem : Memory} {slots : List Slot}
    {vaults : List Vault} {rngIn : List Byte} {draws : Nat} {e : ErrCode} {v : Word}
    (h : t = State.complete { s with
      regs := regs, xmem := xmem, slots := slots, vaults := vaults, rngIn := rngIn, draws := draws } e v) :
    SameEngineSide s t := by
  subst h
  exact ⟨⟨rfl, rfl, rfl⟩, rfl, ⟨rfl, rfl, rfl⟩⟩

/-! ## The bytes that slots take and give -/

section

variable (s : State) (cap a n : Nat)

/-- R87: a slot made live with a range of `XMEM` holds the bytes of the range in order. -/
theorem Slot.byte_live_xmemBytes {i : Nat} (hi : i < n) :
    (Slot.live cap (s.xmemBytes a n)).byte i = s.xmemByte (a + i) := by
  rw [Slot.byte_live, dif_pos (by rwa [State.xmemBytes_length]), State.xmemBytes_getElem]

/-- R87: beyond the range the slot holds zeros. -/
theorem Slot.byte_live_xmemBytes_tail {i : Nat} (hi : n ≤ i) : (Slot.live cap (s.xmemBytes a n)).byte i = 0#8 := by
  rw [Slot.byte_live, dif_neg (by rwa [State.xmemBytes_length, Nat.not_lt])]

/-- R89: a slot refilled with one draw holds the draw in order. -/
theorem Slot.byte_refill_rngBytes (sl : Slot) {i : Nat} (hi : i < n) :
    (sl.refill (s.rngBytes n)).byte i = s.rngByte i := by
  rw [Slot.byte_refill, dif_pos (by rwa [State.rngBytes_length]), State.rngBytes_getElem]

/-- R89: beyond the draw the slot holds what it held. -/
theorem Slot.byte_refill_rngBytes_tail (sl : Slot) {i : Nat} (hi : n ≤ i) :
    (sl.refill (s.rngBytes n)).byte i = sl.byte i := by
  rw [Slot.byte_refill, dif_neg (by rwa [State.rngBytes_length, Nat.not_lt])]

/-- A store of `n` bytes writes no byte outside its range. -/
theorem State.xmemByte_storeBytes_outside_of_length {vs : List Byte} (hlen : vs.length = n) {x : Nat}
    (hx : x < a ∨ a + n ≤ x) : (s.storeBytes a vs).xmemByte x = s.xmemByte x :=
  State.xmemByte_storeBytes_outside s a vs (hlen.symm ▸ hx)

/-- R87: a range that zeros were stored to reads zero. -/
theorem State.xmemByte_storeZeros_inside {i : Nat} (hi : i < n) :
    (s.storeBytes a (List.replicate n 0#8)).xmemByte (a + i) = 0#8 := by
  rw [State.xmemByte_storeBytes_inside s a _ (by rwa [List.length_replicate]), List.getElem_replicate]

/-- R90: a range that a slot's content was stored to reads the slot's bytes in order. -/
theorem State.xmemByte_storeContent_inside (sl : Slot) {i : Nat} (hi : i < sl.len) :
    (s.storeBytes a sl.content).xmemByte (a + i) = sl.byte i := by
  rw [State.xmemByte_storeBytes_inside s a _ (by rwa [Slot.content_length]), Slot.content_getElem]

end

/-! ## The ends of the commands -/

section

variable {s : State} {sb : SlotIx} {ra rn : Reg} {sl : Slot} (hsl : s.slot? sb = some sl)
include hsl

theorem fails_sbld_of_live (hlive : sl.valid = true) : Fails (.sbld sb ra rn) s .stateError := by
  simp only [Fails, exec, execSbld, hsl, if_pos hlive]
  rfl

theorem fails_sbld_of_too_long (hfree : sl.valid = false) (hlong : (s.reg rn).toNat > s.params.sbCap) :
    Fails (.sbld sb ra rn) s .lengthError := by
  simp only [Fails, exec, execSbld, hsl, hfree, Bool.false_eq_true, if_false, if_pos hlong]
  rfl

theorem fails_sbld_of_out_of_range (hfree : sl.valid = false) (hfit : (s.reg rn).toNat ≤ s.params.sbCap)
    (hout : ¬ s.InRange (s.reg ra) (s.reg rn).toNat) : Fails (.sbld sb ra rn) s .addressError := by
  simp only [Fails, exec, execSbld, hsl, hfree, Bool.false_eq_true, if_false, if_neg (Nat.not_lt.mpr hfit)]
  exact if_pos hout

/-- R87: with a free slot, a length that fits and a range in `XMEM`, the command completes. -/
theorem exec_sbld_of_free (hfree : sl.valid = false) (hfit : (s.reg rn).toNat ≤ s.params.sbCap)
    (hin : s.InRange (s.reg ra) (s.reg rn).toNat) : exec (.sbld sb ra rn) s =
    .next (((s.setSlot sb (Slot.live s.params.sbCap (s.xmemBytes (s.reg ra).toNat (s.reg rn).toNat))).storeBytes
      (s.reg ra).toNat (List.replicate (s.reg rn).toNat 0#8)).complete .success 0#32) := by
  simp only [exec, execSbld, hsl, hfree, Bool.false_eq_true, if_false, if_neg (Nat.not_lt.mpr hfit)]
  exact if_neg (not_not.mpr hin)

/-- R88: `SBREL` has no check on a slot of the instance. -/
theorem exec_sbrel (imm : Byte) : exec (.sbrel sb imm) s =
    .next ((s.setSlot sb (Slot.free s.params.sbCap imm)).complete .success 0#32) := by
  simp only [exec, execSbrel, hsl]
  rfl

theorem fails_sbrand_of_free (hfree : sl.valid = false) : Fails (.sbrand sb) s .stateError := by
  simp only [Fails, exec, execSbrand, hsl, if_pos hfree]
  rfl

theorem exec_sbrand_of_live (hlive : sl.valid = true) : exec (.sbrand sb) s =
    .next (((s.setSlot sb (sl.refill (s.rngBytes sl.len))).rngAdvance sl.len).complete .success 0#32) := by
  simp only [exec, execSbrand, hsl, hlive, Bool.true_eq_false, if_false]
  rfl

theorem fails_sbst_of_free (hfree : sl.valid = false) : Fails (.sbst sb ra) s .stateError := by
  simp only [Fails, exec, execSbst, hsl, if_pos hfree]
  rfl

theorem fails_sbst_of_out_of_range (hlive : sl.valid = true) (hout : ¬ s.InRange (s.reg ra) sl.len) :
    Fails (.sbst sb ra) s .addressError := by
  simp only [Fails, exec, execSbst, hsl, hlive, Bool.true_eq_false, if_false]
  exact if_pos hout

/-- R90: with a live slot and a destination in `XMEM`, the command completes. -/
theorem exec_sbst_of_live (hlive : sl.valid = true) (hin : s.InRange (s.reg ra) sl.len) : exec (.sbst sb ra) s =
    .next ((s.storeBytes (s.reg ra).toNat sl.content).complete .success (BitVec.ofNat 32 sl.len)) := by
  simp only [exec, execSbst, hsl, hlive, Bool.true_eq_false, if_false]
  exact if_neg (not_not.mpr hin)

theorem fails_sblen_of_free (hfree : sl.valid = false) : Fails (.sblen sb) s .stateError := by
  simp only [Fails, exec, execSblen, hsl, if_pos hfree]
  rfl

theorem exec_sblen_of_live (hlive : sl.valid = true) :
    exec (.sblen sb) s = .next (s.complete .success (BitVec.ofNat 32 sl.len)) := by
  simp only [exec, execSblen, hsl, hlive, Bool.true_eq_false, if_false]
  rfl

end

/-! ## The obligations -/

/-- Settles O45: the three checks fail in their order; past them the slot takes the bytes and the range is zeroed. -/
theorem sbldConsumesItsSource : Obligations.SbldConsumesItsSource := by
  refine ⟨otherWordsAreIllegal_of_opcode .sbld fun | .sbld sb ra rn, _ => ⟨sb, ra, rn, rfl⟩,
    fun sb ra rn => ⟨fieldsWord_formatR_three _ _ _ _, fun s sl hsl => ⟨fails_sbld_of_live hsl,
      fails_sbld_of_too_long hsl, fails_sbld_of_out_of_range hsl, fun hfree hfit hin => ?_⟩⟩⟩
  have hcap : (s.xmemBytes (s.reg ra).toNat (s.reg rn).toNat).length ≤ s.params.sbCap := by
    rwa [State.xmemBytes_length]
  exact ⟨_, _, exec_sbld_of_free hsl hfree hfit hin, State.slot?_of_slots_set hsl rfl, Slot.live_valid _ _,
    State.xmemBytes_length _ _ _, Slot.live_bytes_length hcap, fun _ hi => Slot.byte_live_xmemBytes _ _ _ _ hi,
    fun _ hi => Slot.byte_live_xmemBytes_tail _ _ _ _ hi, fun _ hi => State.xmemByte_storeZeros_inside _ _ _ hi,
    fun _ hx => State.xmemByte_storeBytes_outside_of_length _ _ _ List.length_replicate hx,
    State.complete_answers _ _ _, fun _ => rfl, State.sameSlotsBut_of_slots_set rfl, rfl, ⟨rfl, rfl⟩,
    State.sameEngineSide_of_eq_moved rfl⟩

/-- Settles O46: the slot is replaced by a free one over the whole capacity, whatever it held. -/
theorem sbrelErasesTheSlot : Obligations.SbrelErasesTheSlot :=
  ⟨otherWordsAreIllegal_of_opcode .sbrel fun | .sbrel sb imm, _ => ⟨sb, imm, rfl⟩,
    fun _ imm => ⟨fieldsWord_formatI_byte _ _ _, fun _ _ hsl =>
      ⟨_, exec_sbrel hsl imm, State.slot?_of_slots_set hsl rfl, State.complete_answers _ _ _, fun _ => rfl,
        fun _ => rfl, State.sameSlotsBut_of_slots_set rfl, rfl, ⟨rfl, rfl⟩, State.sameEngineSide_of_eq_moved rfl⟩⟩⟩

/-- Settles O47: a live slot is refilled with one draw of `LEN` bytes. -/
theorem sbrandFillsFromTheRandomSource : Obligations.SbrandFillsFromTheRandomSource := by
  refine ⟨otherWordsAreIllegal_of_opcode .sbrand fun | .sbrand sb, _ => ⟨sb, rfl⟩,
    fun sb => ⟨fieldsWord_formatR_one _ _, fun s sl hsl => ⟨fails_sbrand_of_free hsl, fun hlive => ?_⟩⟩⟩
  exact ⟨_, _, exec_sbrand_of_live hsl hlive, State.slot?_of_slots_set hsl rfl, hlive, Slot.refill_len _ _,
    fun _ hi => Slot.byte_refill_rngBytes _ _ _ hi, fun _ hi => Slot.byte_refill_rngBytes_tail _ _ _ hi, ⟨rfl, rfl⟩,
    State.complete_answers _ _ _, fun _ => rfl, fun _ => rfl, State.sameSlotsBut_of_slots_set rfl, rfl,
    State.sameEngineSide_of_eq_moved rfl⟩

/-- Settles O48: a live slot's content is stored and its length answered; the slot is only read. -/
theorem sbstCopiesTheContentOut : Obligations.SbstCopiesTheContentOut := by
  refine ⟨otherWordsAreIllegal_of_opcode .sbst fun | .sbst sb ra, _ => ⟨sb, ra, rfl⟩,
    fun sb ra => ⟨fieldsWord_formatR_two _ _ _, fun s sl hsl => ⟨fails_sbst_of_free hsl,
      fails_sbst_of_out_of_range hsl, fun hlive hin => ?_⟩⟩⟩
  exact ⟨_, exec_sbst_of_live hsl hlive hin, fun _ hi => State.xmemByte_storeContent_inside _ _ _ hi,
    fun _ hx => State.xmemByte_storeBytes_outside_of_length _ _ _ (Slot.content_length _) hx,
    State.complete_answers _ _ _, fun _ => rfl, State.same_of_eq_regs_xmem rfl⟩

/-- Settles O49: the meaning of `SBLEN` on a live slot is the response with the length. -/
theorem sblenAnswersTheLength : Obligations.SblenAnswersTheLength :=
  ⟨otherWordsAreIllegal_of_opcode .sblen fun | .sblen sb, _ => ⟨sb, rfl⟩,
    fun _ => ⟨fieldsWord_formatR_one _ _, fun _ _ hsl => ⟨fails_sblen_of_free hsl, exec_sblen_of_live hsl⟩⟩⟩

end Sys2Proof.Machine
end

section
/-! SUPPORT. Proofs of the statements about the vault and guard commands (44_vault_guard.md), after what a command that
replaces one vault leaves alone, how each command can end, how vaults stand apart, and every way a vault can change. -/

namespace Sys2Proof.Machine

/-! ## Replacing one vault -/

section

variable {s t : State} {v w : VaultIx} {x x' : Vault}

/-- Writing a vault that exists in the state leaves that value in it. -/
theorem State.vault?_of_vaults_set (hx : s.vault? v = some x) (h : t.vaults = s.vaults.set v.val x') :
    t.vault? v = some x' :=
  (congrArg (·[v.val]?) h).trans (State.vault?_setVault_self hx x')

/-- Writing one vault leaves every other one alone. -/
theorem State.sameVaultsBut_of_vaults_set (h : t.vaults = s.vaults.set v.val x') : SameVaultsBut s t v := fun j hj =>
  (congrArg (·[j]?) h).trans (State.vaults_setVault_of_ne hj x')

theorem State.vault?_setVault_of_ne (hne : w ≠ v) (y : Vault) : (s.setVault w y).vault? v = s.vault? v :=
  State.vaults_setVault_of_ne (fun h => hne (Fin.ext h.symm)) y

/-- Writes to two different vaults can be swapped. -/
theorem State.setVault_comm (hne : w ≠ v) (x y : Vault) :
    (s.setVault w y).setVault v x = (s.setVault v x).setVault w y :=
  congrArg (fun vs => { s with vaults := vs }) (List.set_comm _ _ fun h => hne (Fin.ext h))

/-- The key that vault `v` gives does not depend on what another vault holds. -/
theorem State.keyOf_setVault_of_ne (hne : w ≠ v) (y : Vault) :
    (s.setVault w y).keyOf (.vault v) = s.keyOf (.vault v) := by
  simp only [State.keyOf, State.vault?_setVault_of_ne hne]

end

/-! ## The bytes of a vault -/

/-- R93: under a pad drawn from the random source, byte `i` of the mask is the drawn byte, and byte `i` of the data has
it XORed in. -/
theorem Vault.lock_rngPad_getElem (x : Vault) (s : State) (i : Fin 32) :
    (x.lock s.rngPad).mask[i.val] = s.rngByte i.val ∧
      (x.lock s.rngPad).data[i.val] = x.data[i.val] ^^^ s.rngByte i.val := by
  simp only [Vault.lock_mask, Vault.lock_data, keyXor_getElem, State.rngPad_getElem, and_self]

/-- R99: a range that a key was stored to reads the key's bytes in order. -/
theorem State.xmemByte_storeKey_inside (s : State) (a : Nat) (key : Key) (i : Fin 32) :
    (s.storeBytes a key.toList).xmemByte (a + i.val) = key[i.val] :=
  (State.xmemByte_storeBytes_inside s a key.toList (by rw [Vector.length_toList]; exact i.isLt)).trans
    (Vector.getElem_toList _)

/-! ## The ends of the commands -/

section

variable {s : State} {v : VaultIx} {sb : SlotIx} {ra : Reg} {x : Vault} {sl : Slot} (hx : s.vault? v = some x)
include hx

theorem fails_vnew_of_state (hsl : s.slot? sb = some sl) (hstate : x.valid = true ∨ sl.valid = false) :
    Fails (.vnew v sb) s .stateError := by
  simp only [Fails, exec, execVnew, hx, hsl, ← ite_or]
  exact if_pos hstate

theorem fails_vnew_of_too_long (hsl : s.slot? sb = some sl) (habsent : x.valid = false) (hlive : sl.valid = true)
    (hlong : sl.len > 32) : Fails (.vnew v sb) s .lengthError := by
  simp only [Fails, exec, execVnew, hx, hsl, habsent, hlive, Bool.false_eq_true, Bool.true_eq_false, if_false]
  exact if_pos hlong

/-- R96: with no vault and a live slot of at most 32 bytes, the command completes. -/
theorem exec_vnew_of_live (hsl : s.slot? sb = some sl) (habsent : x.valid = false) (hlive : sl.valid = true)
    (hfit : sl.len ≤ 32) : exec (.vnew v sb) s =
    .next ((((s.setSlot sb (Slot.free s.params.sbCap 0#8)).setVault v
      (Vault.lock { x with valid := true, guard := false, data := sl.paddedKey } s.rngPad)).rngAdvance 32).complete
        .success 0#32) := by
  simp only [exec, execVnew, hx, hsl, habsent, hlive, Bool.false_eq_true, Bool.true_eq_false, if_false]
  exact if_neg (Nat.not_lt.mpr hfit)

theorem fails_gacq_of_state (hstate : x.valid = false ∨ x.guard = true) : Fails (.gacq v) s .stateError := by
  simp only [Fails, exec, execGacq, hx, ← ite_or]
  exact if_pos hstate

/-- R97: with a vault and no guard, the command completes. -/
theorem exec_gacq_of_locked (hvalid : x.valid = true) (hguard : x.guard = false) : exec (.gacq v) s =
    .next ((s.setVault v { x.unlock with guard := true }).complete .success 0#32) := by
  simp only [exec, execGacq, hx, hvalid, hguard, Bool.false_eq_true, Bool.true_eq_false, if_false]
  rfl

theorem fails_grel_of_state (hstate : x.valid = false ∨ x.guard = false) : Fails (.grel v) s .stateError := by
  simp only [Fails, exec, execGrel, hx, ← ite_or]
  exact if_pos hstate

/-- R98: with a vault and an active guard, the command completes. -/
theorem exec_grel_of_open (hvalid : x.valid = true) (hguard : x.guard = true) : exec (.grel v) s =
    .next (((s.setVault v { x.lock s.rngPad with guard := false }).rngAdvance 32).complete .success 0#32) := by
  simp only [exec, execGrel, hx, hvalid, hguard, Bool.true_eq_false, if_false]
  rfl

theorem fails_vrd_of_state (hstate : x.valid = false ∨ x.guard = false) : Fails (.vrd v ra) s .stateError := by
  simp only [Fails, exec, execVrd, hx]
  exact if_pos hstate

theorem fails_vrd_of_out_of_range (hvalid : x.valid = true) (hguard : x.guard = true)
    (hout : ¬ s.InRange (s.reg ra) 32) : Fails (.vrd v ra) s .addressError := by
  simp only [Fails, exec, execVrd, hx, hvalid, hguard, Bool.true_eq_false, or_self, if_false]
  exact if_pos hout

/-- R99: with an active guard and a destination in `XMEM`, the command completes. -/
theorem exec_vrd_of_open (hvalid : x.valid = true) (hguard : x.guard = true) (hin : s.InRange (s.reg ra) 32) :
    exec (.vrd v ra) s = .next ((s.storeBytes (s.reg ra).toNat x.data.toList).complete .success 0#32) := by
  simp only [exec, execVrd, hx, hvalid, hguard, Bool.true_eq_false, or_self, if_false]
  exact if_neg (not_not.mpr hin)

theorem fails_vdel_of_open (hguard : x.guard = true) : Fails (.vdel v) s .stateError := by
  simp only [Fails, exec, execVdel, hx]
  exact if_pos hguard

/-- R100: with no guard, the command completes, also on an absent vault. -/
theorem exec_vdel_of_unguarded (hguard : x.guard = false) : exec (.vdel v) s =
    .next ((s.setVault v { x with valid := false, data := Key.zero, mask := Key.zero }).complete .success 0#32) := by
  simp only [exec, execVdel, hx, hguard, Bool.false_eq_true, if_false]
  rfl

end

/-! ## Vaults stand apart

A command that names vault `v` reads the vaults only through `vault? v`, and every other update it makes can be swapped
with a write to another vault `w`; so it commutes with that write. -/

/-- The result with a change made to its next state. -/
def Result.mapState (f : State → State) : Result → Result
  | .next s => .next (f s)
  | .fault r => .fault r
  | .refused r => .refused r

section

variable (s : State) (w : VaultIx) (y : Vault)

theorem Result.mapState_raise (e : ErrCode) : (raise e s).mapState (·.setVault w y) = raise e (s.setVault w y) := rfl

theorem Result.mapState_respond (c : Word) :
    (respond c s).mapState (·.setVault w y) = respond c (s.setVault w y) := rfl

theorem State.slot?_setVault (b : SlotIx) : (s.setVault w y).slot? b = s.slot? b := rfl

theorem State.inRange_setVault (a : Word) (n : Nat) : (s.setVault w y).InRange a n ↔ s.InRange a n := Iff.rfl

theorem State.setSlot_setVault (b : SlotIx) (sl : Slot) :
    (s.setVault w y).setSlot b sl = (s.setSlot b sl).setVault w y := rfl

theorem State.rngPad_setVault : (s.setVault w y).rngPad = s.rngPad := rfl

theorem State.rngAdvance_setVault (n : Nat) : (s.setVault w y).rngAdvance n = (s.rngAdvance n).setVault w y := rfl

theorem State.storeBytes_setVault (a : Nat) (vs : List Byte) :
    (s.setVault w y).storeBytes a vs = (s.storeBytes a vs).setVault w y := rfl

theorem State.transformXmem_setVault (key : Key) (d c n : Nat) :
    (s.setVault w y).transformXmem key d c n = (s.transformXmem key d c n).setVault w y := rfl

end

section

variable {v w : VaultIx} (s : State) (y : Vault) (hne : w ≠ v)
include hne

/-- The range checks of the two sides agree by computation: they read no vault. -/
theorem execXform_setVault (rd rs rn : Reg) :
    execXform rd rs rn (.vault v) (s.setVault w y) = (execXform rd rs rn (.vault v) s).mapState (·.setVault w y) := by
  simp only [execXform, State.keyOf_setVault_of_ne hne]
  cases s.keyOf (.vault v) with
  | error e => rfl
  | ok key =>
    simp only [apply_ite (Result.mapState _), Result.mapState_raise, Result.mapState_respond, State.reg_setVault,
      State.transformXmem_setVault]
    rfl

theorem execVnew_setVault (sb : SlotIx) :
    execVnew v sb (s.setVault w y) = (execVnew v sb s).mapState (·.setVault w y) := by
  simp only [execVnew, State.vault?_setVault_of_ne hne, State.slot?_setVault]
  cases s.vault? v with
  | none => rfl
  | some x =>
    cases s.slot? sb with
    | none => rfl
    | some sl =>
      simp only [apply_ite (Result.mapState _), Result.mapState_raise, Result.mapState_respond, State.setVault_params,
        State.setSlot_setVault, State.rngPad_setVault, State.rngAdvance_setVault, State.setVault_comm hne]

theorem execGacq_setVault : execGacq v (s.setVault w y) = (execGacq v s).mapState (·.setVault w y) := by
  simp only [execGacq, State.vault?_setVault_of_ne hne]
  cases s.vault? v with
  | none => rfl
  | some x =>
    simp only [apply_ite (Result.mapState _), Result.mapState_raise, Result.mapState_respond, State.setVault_comm hne]

theorem execGrel_setVault : execGrel v (s.setVault w y) = (execGrel v s).mapState (·.setVault w y) := by
  simp only [execGrel, State.vault?_setVault_of_ne hne]
  cases s.vault? v with
  | none => rfl
  | some x =>
    simp only [apply_ite (Result.mapState _), Result.mapState_raise, Result.mapState_respond, State.rngPad_setVault,
      State.rngAdvance_setVault, State.setVault_comm hne]

theorem execVrd_setVault (ra : Reg) : execVrd v ra (s.setVault w y) = (execVrd v ra s).mapState (·.setVault w y) := by
  simp only [execVrd, State.vault?_setVault_of_ne hne]
  cases s.vault? v with
  | none => rfl
  | some x =>
    simp only [apply_ite (Result.mapState _), Result.mapState_raise, Result.mapState_respond, State.reg_setVault,
      State.inRange_setVault, State.storeBytes_setVault]

theorem execVdel_setVault : execVdel v (s.setVault w y) = (execVdel v s).mapState (·.setVault w y) := by
  simp only [execVdel, State.vault?_setVault_of_ne hne]
  cases s.vault? v with
  | none => rfl
  | some x =>
    simp only [apply_ite (Result.mapState _), Result.mapState_raise, Result.mapState_respond, State.setVault_comm hne]

/-- R103: a command on vault `v` commutes with a write to any other vault. -/
theorem exec_setVault_of_named {i : Instr} (hname : namedVault i = some v) :
    exec i (s.setVault w y) = Result.mapState (·.setVault w y) (exec i s) := by
  cases i with
  | xform rd rs rn ks =>
    cases ks with
    | slot b => exact nomatch hname
    | vault u => cases hname; exact execXform_setVault s y hne rd rs rn
  | vnew u sb => cases hname; exact execVnew_setVault s y hne sb
  | gacq u => cases hname; exact execGacq_setVault s y hne
  | grel u => cases hname; exact execGrel_setVault s y hne
  | vrd u ra => cases hname; exact execVrd_setVault s y hne ra
  | vdel u => cases hname; exact execVdel_setVault s y hne
  | _ => exact nomatch hname

end

/-! ## How a vault changes -/

/-- Every way a command can change the vault it writes, from `x` in state `s`: R96, R97, R98, R100. -/
inductive VaultUpdate (s : State) (x : Vault) : Instr → VaultIx → Vault → Prop where
  | created (v : VaultIx) (sb : SlotIx) (sl : Slot) (habsent : x.valid = false) :
    VaultUpdate s x (.vnew v sb) v
      (Vault.lock { x with valid := true, guard := false, data := sl.paddedKey } s.rngPad)
  | unlocked (v : VaultIx) (hvalid : x.valid = true) (hguard : x.guard = false) :
    VaultUpdate s x (.gacq v) v { x.unlock with guard := true }
  | relocked (v : VaultIx) (hvalid : x.valid = true) (hguard : x.guard = true) :
    VaultUpdate s x (.grel v) v { x.lock s.rngPad with guard := false }
  | erased (v : VaultIx) (hguard : x.guard = false) :
    VaultUpdate s x (.vdel v) v { x with valid := false, data := Key.zero, mask := Key.zero }

theorem VaultUpdate.writtenVault_eq {s : State} {x y : Vault} {i : Instr} {v : VaultIx} (h : VaultUpdate s x i v y) :
    writtenVault i = some v := by
  cases h <;> rfl

/-- R102: a command leaves every vault as it was, or changes the one vault it writes in one of the four ways. -/
inductive VaultsStep (s : State) (i : Instr) (t : State) : Prop where
  | kept (h : SameVaults s t)
  | updated (v : VaultIx) (x y : Vault) (hx : s.vault? v = some x) (ht : t.vaults = s.vaults.set v.val y)
    (hup : VaultUpdate s x i v y)

theorem exec_vaultsStep {i : Instr} {s t : State} (h : exec i s = .next t) : VaultsStep s i t := by
  cases i with
  | nop => rw [exec_nop_cases h]; exact .kept rfl
  | li rd imm => rw [exec_li_cases h]; exact .kept rfl
  | lih rd imm => rw [exec_lih_cases h]; exact .kept rfl
  | getr rs => rw [exec_getr_cases h]; exact .kept rfl
  | rdc c => rw [exec_rdc_cases h]; exact .kept rfl
  | stb ra imm => obtain ⟨-, rfl⟩ | ⟨-, rfl⟩ := exec_stb_cases h <;> exact .kept rfl
  | ldb ra => obtain ⟨-, rfl⟩ | ⟨-, rfl⟩ := exec_ldb_cases h <;> exact .kept rfl
  | stw ra rb => obtain ⟨-, rfl⟩ | ⟨-, rfl⟩ := exec_stw_cases h <;> exact .kept rfl
  | ldw rd ra => obtain ⟨-, rfl⟩ | ⟨-, rfl⟩ := exec_ldw_cases h <;> exact .kept rfl
  | cfgsbox ra rn =>
    obtain ⟨-, rfl⟩ | ⟨-, -, rfl⟩ | ⟨-, -, -, rfl⟩ | ⟨-, -, -, rfl⟩ := exec_cfgsbox_cases h <;> exact .kept rfl
  | cfgsync ra rb => rw [exec_cfgsync_cases h]; exact .kept rfl
  | xform rd rs rn ks =>
    obtain ⟨_, -, rfl⟩ | ⟨_, -, ⟨-, rfl⟩ | ⟨-, -, -, rfl⟩ | ⟨-, -, -, rfl⟩⟩ := exec_xform_cases h <;> exact .kept rfl
  | sbld sb ra rn =>
    obtain ⟨-, rfl⟩ | ⟨_, -, ⟨-, rfl⟩ | ⟨-, -, rfl⟩ | ⟨-, -, -, rfl⟩ | ⟨-, -, -, rfl⟩⟩ := exec_sbld_cases h <;>
      exact .kept rfl
  | sbrel sb imm => obtain ⟨-, rfl⟩ | ⟨_, -, rfl⟩ := exec_sbrel_cases h <;> exact .kept rfl
  | sbrand sb => obtain ⟨-, rfl⟩ | ⟨_, -, ⟨-, rfl⟩ | ⟨-, rfl⟩⟩ := exec_sbrand_cases h <;> exact .kept rfl
  | sbst sb ra =>
    obtain ⟨-, rfl⟩ | ⟨_, -, ⟨-, rfl⟩ | ⟨-, -, rfl⟩ | ⟨-, -, rfl⟩⟩ := exec_sbst_cases h <;> exact .kept rfl
  | sblen sb => obtain ⟨-, rfl⟩ | ⟨_, -, ⟨-, rfl⟩ | ⟨-, rfl⟩⟩ := exec_sblen_cases h <;> exact .kept rfl
  | vnew v sb =>
    obtain ⟨-, rfl⟩ | ⟨x, sl, hx, -, ⟨-, rfl⟩ | ⟨-, -, -, rfl⟩ | ⟨habsent, -, -, rfl⟩⟩ := exec_vnew_cases h
    exacts [.kept rfl, .kept rfl, .kept rfl, .updated v x _ hx rfl (.created v sb sl habsent)]
  | gacq v =>
    obtain ⟨-, rfl⟩ | ⟨x, hx, ⟨-, rfl⟩ | ⟨hvalid, hguard, rfl⟩⟩ := exec_gacq_cases h
    exacts [.kept rfl, .kept rfl, .updated v x _ hx rfl (.unlocked v hvalid hguard)]
  | grel v =>
    obtain ⟨-, rfl⟩ | ⟨x, hx, ⟨-, rfl⟩ | ⟨hvalid, hguard, rfl⟩⟩ := exec_grel_cases h
    exacts [.kept rfl, .kept rfl, .updated v x _ hx rfl (.relocked v hvalid hguard)]
  | vrd v ra =>
    obtain ⟨-, rfl⟩ | ⟨_, -, ⟨-, rfl⟩ | ⟨-, -, -, rfl⟩ | ⟨-, -, -, rfl⟩⟩ := exec_vrd_cases h <;> exact .kept rfl
  | vdel v =>
    obtain ⟨-, rfl⟩ | ⟨x, hx, ⟨-, rfl⟩ | ⟨hguard, rfl⟩⟩ := exec_vdel_cases h
    exacts [.kept rfl, .kept rfl, .updated v x _ hx rfl (.erased v hguard)]

/-- A vault that the command does not write is as it was. -/
theorem VaultsStep.getElem?_of_not_written {s t : State} {i : Instr} (h : VaultsStep s i t) {j : Nat}
    (hj : ∀ v : VaultIx, writtenVault i = some v → j ≠ v.val) : t.vaults[j]? = s.vaults[j]? := by
  cases h with
  | kept h => exact congrArg (·[j]?) h
  | updated v x y hx ht hup => exact State.sameVaultsBut_of_vaults_set ht j (hj v hup.writtenVault_eq)

/-- What becomes of one vault: it is as it was, or it is the one that was changed. -/
theorem VaultsStep.eq_or_update {s t : State} {i : Instr} (h : VaultsStep s i t) {j : Nat} {x y : Vault}
    (hx : s.vaults[j]? = some x) (hy : t.vaults[j]? = some y) : y = x ∨ ∃ v, v.val = j ∧ VaultUpdate s x i v y := by
  cases h with
  | kept h => exact .inl (Option.some.inj (hy.symm.trans ((congrArg (·[j]?) h).trans hx)))
  | updated v x' y' hx' ht hup =>
    by_cases hj : j = v.val
    · subst hj
      obtain rfl := Option.some.inj (hx.symm.trans hx')
      obtain rfl := Option.some.inj (hy.symm.trans (State.vault?_of_vaults_set hx' ht))
      exact .inr ⟨v, rfl, hup⟩
    · exact .inl (Option.some.inj (hy.symm.trans ((State.sameVaultsBut_of_vaults_set ht j hj).trans hx)))

/-! ## The obligations -/

/-- Settles O50: the two checks fail in their order; past them the padded content is locked under the pad and the slot
is replaced by a free one. -/
theorem vnewBuildsALockedVault : Obligations.VnewBuildsALockedVault := by
  refine ⟨otherWordsAreIllegal_of_opcode .vnew fun | .vnew v sb, _ => ⟨v, sb, rfl⟩,
    fun v sb => ⟨fieldsWord_formatR_two _ _ _, fun s x sl hx hsl => ⟨fails_vnew_of_state hx hsl,
      fails_vnew_of_too_long hx hsl, fun habsent hlive hfit => ?_⟩⟩⟩
  refine ⟨_, _, exec_vnew_of_live hx hsl habsent hlive hfit, State.vault?_of_vaults_set hx rfl, rfl, rfl, fun i => ?_,
    ⟨rfl, rfl⟩, State.slot?_of_slots_set hsl rfl, State.complete_answers _ _ _, fun _ => rfl, fun _ => rfl,
    State.sameSlotsBut_of_slots_set rfl, State.sameVaultsBut_of_vaults_set rfl, State.sameEngineSide_of_eq_moved rfl⟩
  rw [← Slot.paddedKey_getElem sl i.val i.isLt]
  exact Vault.lock_rngPad_getElem { x with valid := true, guard := false, data := sl.paddedKey } s i

/-- Settles O51: a locked vault is unlocked with its own mask; nothing is drawn. -/
theorem gacqUnlocksTheVault : Obligations.GacqUnlocksTheVault := by
  refine ⟨otherWordsAreIllegal_of_opcode .gacq fun | .gacq v, _ => ⟨v, rfl⟩,
    fun v => ⟨fieldsWord_formatR_one _ _, fun s x hx => ⟨fails_gacq_of_state hx, fun hvalid hguard => ?_⟩⟩⟩
  exact ⟨_, { x.unlock with guard := true }, exec_gacq_of_locked hx hvalid hguard, State.vault?_of_vaults_set hx rfl,
    by rw [Vault.unlock_valid, hvalid], rfl, by rw [Vault.unlock_mask], fun i => keyXor_getElem _ _ _ i.isLt,
    State.complete_answers _ _ _, fun _ => rfl, fun _ => rfl, rfl, State.sameVaultsBut_of_vaults_set rfl, ⟨rfl, rfl⟩,
    State.sameEngineSide_of_eq_moved rfl⟩

/-- Settles O52: an open vault is locked under the pad drawn, and the old mask is not read. -/
theorem grelRelocksUnderAFreshPad : Obligations.GrelRelocksUnderAFreshPad := by
  refine ⟨otherWordsAreIllegal_of_opcode .grel fun | .grel v, _ => ⟨v, rfl⟩,
    fun v => ⟨fieldsWord_formatR_one _ _, fun s x hx => ⟨fails_grel_of_state hx, fun hvalid hguard => ?_⟩⟩⟩
  exact ⟨_, { x.lock s.rngPad with guard := false }, exec_grel_of_open hx hvalid hguard,
    State.vault?_of_vaults_set hx rfl, by rw [Vault.lock_valid, hvalid], rfl, Vault.lock_rngPad_getElem x s, ⟨rfl, rfl⟩,
    State.complete_answers _ _ _, fun _ => rfl, fun _ => rfl, rfl, State.sameVaultsBut_of_vaults_set rfl,
    State.sameEngineSide_of_eq_moved rfl⟩

/-- Settles O53: an open vault's data is stored; the vault is only read. -/
theorem vrdCopiesTheKeyView : Obligations.VrdCopiesTheKeyView := by
  refine ⟨otherWordsAreIllegal_of_opcode .vrd fun | .vrd v ra, _ => ⟨v, ra, rfl⟩,
    fun v ra => ⟨fieldsWord_formatR_two _ _ _, fun s x hx => ⟨fails_vrd_of_state hx, fails_vrd_of_out_of_range hx,
      fun hvalid hguard hin => ?_⟩⟩⟩
  exact ⟨_, exec_vrd_of_open hx hvalid hguard hin, State.xmemByte_storeKey_inside _ _ _,
    fun _ => State.xmemByte_storeBytes_outside_of_length _ _ _ Vector.length_toList,
    State.complete_answers _ _ _, fun _ => rfl, State.same_of_eq_regs_xmem rfl⟩

/-- Settles O54: with no guard both stores become zero, whether or not the vault exists. -/
theorem vdelErasesTheVault : Obligations.VdelErasesTheVault := by
  refine ⟨otherWordsAreIllegal_of_opcode .vdel fun | .vdel v, _ => ⟨v, rfl⟩,
    fun v => ⟨fieldsWord_formatR_one _ _, fun s x hx => ⟨fails_vdel_of_open hx, fun hguard => ?_⟩⟩⟩
  exact ⟨_, _, exec_vdel_of_unguarded hx hguard, State.vault?_of_vaults_set hx rfl, rfl, hguard,
    fun i => ⟨Key.zero_getElem i.val i.isLt, Key.zero_getElem i.val i.isLt⟩, State.complete_answers _ _ _,
    fun _ => rfl, fun _ => rfl, rfl, State.sameVaultsBut_of_vaults_set rfl, ⟨rfl, rfl⟩,
    State.sameEngineSide_of_eq_moved rfl⟩

/-- Settles O56: running a command on one vault commutes with a write to another. -/
theorem vaultsAreIndependent : Obligations.VaultsAreIndependent := by
  intro i v w y s t hname hne h
  rw [exec_setVault_of_named s y hne hname, h]
  rfl

/-- Settles O57: a vault is as it was, which rules every transition out, or it was changed in one of the four ways, each
of which makes its own transition only. -/
theorem guardAlternatesOnlyByItsCommands : Obligations.GuardAlternatesOnlyByItsCommands := by
  intro i s t h
  have hstep := exec_vaultsStep h
  refine ⟨fun j hj => hstep.getElem?_of_not_written hj, fun j x y hx hy => ?_⟩
  obtain rfl | ⟨v, rfl, hup⟩ := hstep.eq_or_update hx hy
  · exact ⟨fun _ hclosed hopen => absurd hopen (by simp [hclosed]),
      fun _ hopen hclosed => absurd hopen (by simp [hclosed]),
      fun habsent hvalid => absurd hvalid (by simp [habsent]),
      fun hvalid habsent => absurd hvalid (by simp [habsent])⟩
  · cases hup with
    | created v sb sl habsent =>
      exact ⟨by simp [habsent], by simp [habsent], fun _ _ => ⟨rfl, v, sb, rfl, rfl⟩, by simp [habsent]⟩
    | unlocked v hvalid hguard => exact ⟨fun _ _ _ => ⟨v, rfl, rfl⟩, by simp, by simp [hvalid], by simp [hvalid]⟩
    | relocked v hvalid hguard => exact ⟨by simp, fun _ _ _ => ⟨v, rfl, rfl⟩, by simp [hvalid], by simp [hvalid]⟩
    | erased v hguard => exact ⟨by simp [hguard], by simp [hguard], by simp, fun _ _ => ⟨hguard, v, rfl, rfl⟩⟩

end Sys2Proof.Machine
end

section
/-! SUPPORT. Proofs of the statements about exceptions (60_exceptions.md), from the two ways a command can end. -/

namespace Sys2Proof.Machine

/-- A command that leaves an error code has done nothing but answer with it and write `LASTERR`
(60_exceptions.md R112). -/
theorem Ending.eq_complete_of_error {s t : State} (h : Ending s t) (hne : t.lastErr ≠ .success) :
    t = s.complete t.lastErr 0#32 := by
  cases h with
  | succeeded u v => exact absurd rfl hne
  | failed e he => rfl

/-- Settles O14: every command ends in success or by `raise` on the state it was given. -/
theorem failedCommandChangesNothing : Obligations.FailedCommandChangesNothing :=
  fun _ _ _ h hne => (exec_ending h).eq_complete_of_error hne

end Sys2Proof.Machine
end

section
/-! SUPPORT. Proofs of the statements about the encoding (30_encoding.md): the encoder against each step of the decoder,
and the words that no step accepts. -/

namespace Sys2Proof

/-! ## The encoder against the three steps of the decoder (30_encoding.md R50) -/

theorem encodeFields_op (i : Instr) : (encodeFields i).op = opcodeByte (instrOpcode i) := by
  cases i <;> rfl

/-- Step 1: the opcode of a command's word is found. -/
theorem opcodeOf?_encodeFields (i : Instr) : opcodeOf? (encodeFields i).op = some (instrOpcode i) := by
  rw [encodeFields_op, opcodeOf?_opcodeByte]

/-- Step 2: a command's word is zero in every field that its command does not use. A byte immediate leaves `c` and `d`
zero; the number of a control register is no byte immediate, but small. -/
theorem unusedZero_encodeFields (i : Instr) : unusedZero (instrOpcode i) (encodeFields i) = true := by
  cases i with
  | stb ra imm =>
    have hf : encodeFields (.stb ra imm) = ⟨opcodeByte .stb, regField ra, 0#4, 0#4, 0#4, imm⟩ :=
      formatI_append_byte _ _ _
    rw [hf]
    rfl
  | sbrel sb imm =>
    have hf : encodeFields (.sbrel sb imm) = ⟨opcodeByte .sbrel, slotField sb, 0#4, 0#4, 0#4, imm⟩ :=
      formatI_append_byte _ _ _
    rw [hf]
    rfl
  | _ => rfl

/-- Step 3: from a command's word each operand is read back, where the command's fields are legal. -/
theorem operands?_encodeFields {p : Params} {i : Instr} (hl : i.wellFormed p = true) :
    operands? p (instrOpcode i) (encodeFields i) = some i := by
  cases i with
  | nop => rfl
  | li rd imm | lih rd imm =>
    simp only [operands?, instrOpcode, encodeFields, fieldsImm16_formatI]
    simp only [formatI, fieldReg?_regField, Option.map_some]
  | rdc c => simp only [operands?, instrOpcode, encodeFields, fieldsImm16_formatI, csrOf?_csrNumber, Option.map_some]
  | getr r | ldb r => simp only [operands?, instrOpcode, encodeFields, formatR, fieldReg?_regField, Option.map_some]
  | stb ra imm =>
    simp only [operands?, instrOpcode, encodeFields, formatI_append_byte, fieldReg?_regField, Option.map_some]
  | stw a b | ldw a b | cfgsbox a b | cfgsync a b =>
    simp only [operands?, instrOpcode, encodeFields, formatR, fieldReg?_regField, Option.map_some, Option.bind_some]
  | xform rd rs rn ks =>
    simp only [operands?, instrOpcode, encodeFields, formatR, fieldReg?_regField, fieldKeySrc?_keySrcField hl,
      Option.map_some, Option.bind_some]
  | sbld sb ra rn =>
    simp only [operands?, instrOpcode, encodeFields, formatR, fieldReg?_regField, fieldSlot?_slotField hl,
      Option.map_some, Option.bind_some]
  | sbrel sb imm =>
    simp only [operands?, instrOpcode, encodeFields, formatI_append_byte, fieldSlot?_slotField hl, Option.map_some]
  | sbrand sb | sblen sb =>
    simp only [operands?, instrOpcode, encodeFields, formatR, fieldSlot?_slotField hl, Option.map_some]
  | sbst sb ra =>
    simp only [operands?, instrOpcode, encodeFields, formatR, fieldReg?_regField, fieldSlot?_slotField hl,
      Option.map_some, Option.bind_some]
  | vnew v sb =>
    obtain ⟨hv, hsb⟩ := Bool.and_eq_true_iff.mp hl
    simp only [operands?, instrOpcode, encodeFields, formatR, fieldVault?_vaultField hv, fieldSlot?_slotField hsb,
      Option.map_some, Option.bind_some]
  | gacq v | grel v | vdel v =>
    simp only [operands?, instrOpcode, encodeFields, formatR, fieldVault?_vaultField hl, Option.map_some]
  | vrd v ra =>
    simp only [operands?, instrOpcode, encodeFields, formatR, fieldReg?_regField, fieldVault?_vaultField hl,
      Option.map_some, Option.bind_some]

theorem decode_encode {p : Params} {i : Instr} (hl : i.wellFormed p = true) : decode p (encode i) = .ok i := by
  rw [decode, encode, wordFields_fieldsWord, decodeFields, opcodeOf?_encodeFields]
  simp only [unusedZero_encodeFields, operands?_encodeFields hl, if_true]

/-! ## The codes that are opcodes -/

/-- The numbers of the 22 opcodes (30_encoding.md R51). -/
theorem opcodeByte_toNat_mem (o : Opcode) : (opcodeByte o).toNat ∈
    [0x00, 0x01, 0x02, 0x03, 0x04, 0x08, 0x09, 0x0A, 0x0B, 0x10, 0x11, 0x12,
      0x20, 0x21, 0x22, 0x23, 0x24, 0x30, 0x31, 0x32, 0x33, 0x34] := by
  cases o <;> decide

theorem decode_of_opcodeOf?_eq_none {p : Params} {w : Word} (h : opcodeOf? (w.extractLsb' 24 8) = none) :
    decode p w = .error .unknownOpcode := by
  have hop : opcodeOf? (wordFields w).op = none := h
  rw [decode, decodeFields, hop]

/-! ## The obligations -/

/-- Settles O1: the word of a command has its fields, which pass the three steps of the decoder. -/
theorem decodeOfEncodeIsTheCommand : Obligations.DecodeOfEncodeIsTheCommand :=
  fun _ _ hl => decode_encode hl

/-- Settles O2: the three steps of the decoder lose nothing of the word. -/
theorem decodedWordIsTheCommandsWord : Obligations.DecodedWordIsTheCommandsWord :=
  fun _ _ _ h => encode_of_decode_eq_ok h

/-- Settles O3: the decoder, run on each of the nine words. -/
theorem exampleWordsDecode : Obligations.ExampleWordsDecode :=
  ⟨rfl, rfl, rfl, rfl, rfl, rfl, rfl, rfl, rfl⟩

/-- Settles O5: a code that is found is the code of an opcode, and so one of the 22. -/
theorem unassignedOpcodesAreIllegal : Obligations.UnassignedOpcodesAreIllegal := by
  intro p w hw
  cases ho : opcodeOf? (w.extractLsb' 24 8) with
  | none => exact decode_of_opcodeOf?_eq_none ho
  | some o => exact absurd (opcodeByte_of_opcodeOf? ho ▸ opcodeByte_toNat_mem o) hw

end Sys2Proof
end

section
/-! SUPPORT. What a step can do, said once for all commands: the effect of each command that succeeds, the ends of each
command with what it has passed or lacks, and the four kinds of step. The statements about steps and about the invariant
(10_state.md, 20_memory.md, 60_exceptions.md, 70_reset_and_hazards.md) follow from it. -/

namespace Sys2Proof.Machine

/-! ## What a command does when it succeeds -/

/-- The state a successful command leaves, but for the answer, and the checks it has passed. -/
inductive Effect (s : State) : Instr → State → Prop where
  | nop : Effect s .nop s
  | li (rd : Reg) (imm : BitVec 16) : Effect s (.li rd imm) (s.setReg rd (imm.setWidth 32))
  | lih (rd : Reg) (imm : BitVec 16) :
    Effect s (.lih rd imm) (s.setReg rd (imm ++ (s.reg rd).extractLsb' 0 16))
  | getr (rs : Reg) : Effect s (.getr rs) s
  | rdc (c : Csr) : Effect s (.rdc c) s
  | stb (ra : Reg) (imm : Byte) (hin : s.InRange (s.reg ra) 1) :
    Effect s (.stb ra imm) ((s.storeBytes (s.reg ra).toNat [imm]).bumpReg ra)
  | ldb (ra : Reg) (hin : s.InRange (s.reg ra) 1) : Effect s (.ldb ra) (s.bumpReg ra)
  | stw (ra rb : Reg) (hin : s.InRange (s.reg ra) 4) :
    Effect s (.stw ra rb) (s.storeWord (s.reg ra).toNat (s.reg rb))
  | ldw (rd ra : Reg) (hin : s.InRange (s.reg ra) 4) :
    Effect s (.ldw rd ra) (s.setReg rd (s.loadWord (s.reg ra).toNat))
  | cfgsbox (ra rn : Reg) (hfull : 128 ≤ (s.reg rn).toNat) (hin : s.InRange (s.reg ra) 128)
    (hgood : s.tableMalformed (s.reg ra).toNat = false) :
    Effect s (.cfgsbox ra rn) { s with sbox := s.tableAt (s.reg ra).toNat }
  | cfgsync (ra rb : Reg) : Effect s (.cfgsync ra rb) { s with sync0 := s.reg ra, sync1 := s.reg rb }
  | xform (rd rs rn : Reg) (ks : KeySrc) (key : Key) (hkey : s.keyOf ks = .ok key)
    (hsrc : s.InRange (s.reg rs) (s.reg rn).toNat) (hdst : s.InRange (s.reg rd) (s.reg rn).toNat)
    (hapart : ¬ Overlap (s.reg rd) (s.reg rs) (s.reg rn).toNat) :
    Effect s (.xform rd rs rn ks) (s.transformXmem key (s.reg rd).toNat (s.reg rs).toNat (s.reg rn).toNat)
  | sbld (sb : SlotIx) (ra rn : Reg) (sl : Slot) (hsl : s.slot? sb = some sl) (hfree : sl.valid = false)
    (hfit : (s.reg rn).toNat ≤ s.params.sbCap) (hin : s.InRange (s.reg ra) (s.reg rn).toNat) :
    Effect s (.sbld sb ra rn)
      ((s.setSlot sb (Slot.live s.params.sbCap (s.xmemBytes (s.reg ra).toNat (s.reg rn).toNat))).storeBytes
        (s.reg ra).toNat (List.replicate (s.reg rn).toNat 0#8))
  | sbrel (sb : SlotIx) (imm : Byte) (sl : Slot) (hsl : s.slot? sb = some sl) :
    Effect s (.sbrel sb imm) (s.setSlot sb (Slot.free s.params.sbCap imm))
  | sbrand (sb : SlotIx) (sl : Slot) (hsl : s.slot? sb = some sl) (hlive : sl.valid = true) :
    Effect s (.sbrand sb) ((s.setSlot sb (sl.refill (s.rngBytes sl.len))).rngAdvance sl.len)
  | sbst (sb : SlotIx) (ra : Reg) (sl : Slot) (hsl : s.slot? sb = some sl) (hlive : sl.valid = true)
    (hin : s.InRange (s.reg ra) sl.len) :
    Effect s (.sbst sb ra) (s.storeBytes (s.reg ra).toNat sl.content)
  | sblen (sb : SlotIx) (sl : Slot) (hsl : s.slot? sb = some sl) (hlive : sl.valid = true) : Effect s (.sblen sb) s
  | vnew (v : VaultIx) (sb : SlotIx) (x : Vault) (sl : Slot) (hx : s.vault? v = some x) (hsl : s.slot? sb = some sl)
    (habsent : x.valid = false) (hlive : sl.valid = true) (hfit : sl.len ≤ 32) :
    Effect s (.vnew v sb)
      (((s.setSlot sb (Slot.free s.params.sbCap 0#8)).setVault v
        (Vault.lock { x with valid := true, guard := false, data := sl.paddedKey } s.rngPad)).rngAdvance 32)
  | gacq (v : VaultIx) (x : Vault) (hx : s.vault? v = some x) (hvalid : x.valid = true) (hguard : x.guard = false) :
    Effect s (.gacq v) (s.setVault v { x.unlock with guard := true })
  | grel (v : VaultIx) (x : Vault) (hx : s.vault? v = some x) (hvalid : x.valid = true) (hguard : x.guard = true) :
    Effect s (.grel v) ((s.setVault v { x.lock s.rngPad with guard := false }).rngAdvance 32)
  | vrd (v : VaultIx) (ra : Reg) (x : Vault) (hx : s.vault? v = some x) (hvalid : x.valid = true)
    (hguard : x.guard = true) (hin : s.InRange (s.reg ra) 32) :
    Effect s (.vrd v ra) (s.storeBytes (s.reg ra).toNat x.data.toList)
  | vdel (v : VaultIx) (x : Vault) (hx : s.vault? v = some x) (hguard : x.guard = false) :
    Effect s (.vdel v) (s.setVault v { x with valid := false, data := Key.zero, mask := Key.zero })

/-! ## The ends of each command -/

/-- The state has as many slots and vaults as its parameters say. -/
def State.Counted (s : State) : Prop := s.slots.length = s.params.nsb ∧ s.vaults.length = s.params.nvault

/-- The ways of `Ending`, told apart by command: success with the command's effect, or an error with no effect. The error
is one of those that 60_exceptions.md R106 lists for the command, or `IllegalCommand` for a slot or vault that the
state lacks. -/
inductive CommandEnd (s : State) (i : Instr) : State → Prop where
  | succeeded {u : State} (v : Word) (h : Effect s i u) : CommandEnd s i (u.complete .success v)
  | raised (e : ErrCode) (h : e ∈ raisable i := by simp [raisable]) : CommandEnd s i (s.complete e 0#32)
  | lacking (h : s.Counted → i.wellFormed s.params = false) : CommandEnd s i (s.complete .illegalCommand 0#32)

theorem State.slot?_eq_none_iff {s : State} (hc : s.Counted) (sb : SlotIx) :
    s.slot? sb = none ↔ slotLegal s.params sb = false := by
  rw [State.slot?, List.getElem?_eq_none_iff, hc.1, slotLegal, decide_eq_false_iff_not, Nat.not_lt]

theorem State.vault?_eq_none_iff {s : State} (hc : s.Counted) (v : VaultIx) :
    s.vault? v = none ↔ vaultLegal s.params v = false := by
  rw [State.vault?, List.getElem?_eq_none_iff, hc.2, vaultLegal, decide_eq_false_iff_not, Nat.not_lt]

/-- A key source is refused with an error that `XFORM` lists, or names what the state lacks. -/
theorem State.keyOf_error {s : State} {ks : KeySrc} {e : ErrCode} (rd rs rn : Reg) (h : s.keyOf ks = .error e) :
    e ∈ raisable (.xform rd rs rn ks) ∨ e = .illegalCommand ∧ (s.Counted → keySrcLegal s.params ks = false) := by
  rcases s.keyOf_cases ks with ⟨hk, hsrc⟩ | ⟨hk, hsrc⟩ | ⟨hk, b, sl, rfl, -⟩ | ⟨_, _, hk, -⟩ | ⟨_, _, hk, -⟩
  · refine .inr ⟨Except.error.inj (h.symm.trans hk), fun hc => ?_⟩
    obtain ⟨b, rfl, hb⟩ | ⟨v, rfl, hv⟩ := hsrc
    exacts [(State.slot?_eq_none_iff hc b).mp hb, (State.vault?_eq_none_iff hc v).mp hv]
  · obtain rfl := Except.error.inj (h.symm.trans hk)
    obtain ⟨b, _, rfl, -⟩ | ⟨v, _, rfl, -⟩ := hsrc <;> exact .inl (.head _)
  · obtain rfl := Except.error.inj (h.symm.trans hk)
    exact .inl (.tail _ (.head _))
  · exact nomatch hk.symm.trans h
  · exact nomatch hk.symm.trans h

theorem raisable_xform_address (rd rs rn : Reg) (ks : KeySrc) : .addressError ∈ raisable (.xform rd rs rn ks) := by
  cases ks <;> simp [raisable]

/-- Every command ends in one of these ways. -/
theorem exec_commandEnd {i : Instr} {s t : State} (h : exec i s = .next t) : CommandEnd s i t := by
  cases i with
  | nop => rw [exec_nop_cases h]; exact .succeeded _ .nop
  | li rd imm => rw [exec_li_cases h]; exact .succeeded _ (.li rd imm)
  | lih rd imm => rw [exec_lih_cases h]; exact .succeeded _ (.lih rd imm)
  | getr rs => rw [exec_getr_cases h]; exact .succeeded _ (.getr rs)
  | rdc c => rw [exec_rdc_cases h]; exact .succeeded _ (.rdc c)
  | stb ra imm =>
    obtain ⟨-, rfl⟩ | ⟨hin, rfl⟩ := exec_stb_cases h
    exacts [.raised _, .succeeded _ (.stb ra imm hin)]
  | ldb ra =>
    obtain ⟨-, rfl⟩ | ⟨hin, rfl⟩ := exec_ldb_cases h
    exacts [.raised _, .succeeded _ (.ldb ra hin)]
  | stw ra rb =>
    obtain ⟨-, rfl⟩ | ⟨hin, rfl⟩ := exec_stw_cases h
    exacts [.raised _, .succeeded _ (.stw ra rb hin)]
  | ldw rd ra =>
    obtain ⟨-, rfl⟩ | ⟨hin, rfl⟩ := exec_ldw_cases h
    exacts [.raised _, .succeeded _ (.ldw rd ra hin)]
  | cfgsbox ra rn =>
    obtain ⟨-, rfl⟩ | ⟨-, -, rfl⟩ | ⟨-, -, -, rfl⟩ | ⟨hfull, hin, hgood, rfl⟩ := exec_cfgsbox_cases h
    exacts [.raised _, .raised _, .raised _, .succeeded _ (.cfgsbox ra rn hfull hin hgood)]
  | cfgsync ra rb => rw [exec_cfgsync_cases h]; exact .succeeded _ (.cfgsync ra rb)
  | xform rd rs rn ks =>
    obtain ⟨e, hk, rfl⟩ | ⟨key, hkey, ⟨-, rfl⟩ | ⟨-, -, -, rfl⟩ | ⟨hsrc, hdst, hapart, rfl⟩⟩ := exec_xform_cases h
    · obtain he | ⟨rfl, hlack⟩ := State.keyOf_error rd rs rn hk
      exacts [.raised e he, .lacking hlack]
    · exact .raised _ (raisable_xform_address rd rs rn ks)
    · exact .raised _ (raisable_xform_address rd rs rn ks)
    · exact .succeeded _ (.xform rd rs rn ks key hkey hsrc hdst hapart)
  | sbld sb ra rn =>
    obtain ⟨hnone, rfl⟩ | ⟨sl, hsl, ⟨-, rfl⟩ | ⟨-, -, rfl⟩ | ⟨-, -, -, rfl⟩ | ⟨hfree, hfit, hin, rfl⟩⟩ :=
       exec_sbld_cases h
    exacts [.lacking fun hc => (State.slot?_eq_none_iff hc sb).mp hnone, .raised _, .raised _,
      .raised _, .succeeded _ (.sbld sb ra rn sl hsl hfree hfit hin)]
  | sbrel sb imm =>
    obtain ⟨hnone, rfl⟩ | ⟨sl, hsl, rfl⟩ := exec_sbrel_cases h
    exacts [.lacking fun hc => (State.slot?_eq_none_iff hc sb).mp hnone, .succeeded _ (.sbrel sb imm sl hsl)]
  | sbrand sb =>
    obtain ⟨hnone, rfl⟩ | ⟨sl, hsl, ⟨-, rfl⟩ | ⟨hlive, rfl⟩⟩ := exec_sbrand_cases h
    exacts [.lacking fun hc => (State.slot?_eq_none_iff hc sb).mp hnone, .raised _,
      .succeeded _ (.sbrand sb sl hsl hlive)]
  | sbst sb ra =>
    obtain ⟨hnone, rfl⟩ | ⟨sl, hsl, ⟨-, rfl⟩ | ⟨-, -, rfl⟩ | ⟨hlive, hin, rfl⟩⟩ := exec_sbst_cases h
    exacts [.lacking fun hc => (State.slot?_eq_none_iff hc sb).mp hnone, .raised _, .raised _,
      .succeeded _ (.sbst sb ra sl hsl hlive hin)]
  | sblen sb =>
    obtain ⟨hnone, rfl⟩ | ⟨sl, hsl, ⟨-, rfl⟩ | ⟨hlive, rfl⟩⟩ := exec_sblen_cases h
    exacts [.lacking fun hc => (State.slot?_eq_none_iff hc sb).mp hnone, .raised _,
      .succeeded _ (.sblen sb sl hsl hlive)]
  | vnew v sb =>
    obtain ⟨hnone, rfl⟩ | ⟨x, sl, hx, hsl, ⟨-, rfl⟩ | ⟨-, -, -, rfl⟩ | ⟨habsent, hlive, hfit, rfl⟩⟩ :=
      exec_vnew_cases h
    · refine .lacking fun hc => Bool.and_eq_false_iff.mpr ?_
      exact hnone.imp (State.vault?_eq_none_iff hc v).mp (State.slot?_eq_none_iff hc sb).mp
    · exact .raised _
    · exact .raised _
    · exact .succeeded _ (.vnew v sb x sl hx hsl habsent hlive hfit)
  | gacq v =>
    obtain ⟨hnone, rfl⟩ | ⟨x, hx, ⟨-, rfl⟩ | ⟨hvalid, hguard, rfl⟩⟩ := exec_gacq_cases h
    exacts [.lacking fun hc => (State.vault?_eq_none_iff hc v).mp hnone, .raised _,
      .succeeded _ (.gacq v x hx hvalid hguard)]
  | grel v =>
    obtain ⟨hnone, rfl⟩ | ⟨x, hx, ⟨-, rfl⟩ | ⟨hvalid, hguard, rfl⟩⟩ := exec_grel_cases h
    exacts [.lacking fun hc => (State.vault?_eq_none_iff hc v).mp hnone, .raised _,
      .succeeded _ (.grel v x hx hvalid hguard)]
  | vrd v ra =>
    obtain ⟨hnone, rfl⟩ | ⟨x, hx, ⟨-, rfl⟩ | ⟨-, -, -, rfl⟩ | ⟨hvalid, hguard, hin, rfl⟩⟩ :=
      exec_vrd_cases h
    exacts [.lacking fun hc => (State.vault?_eq_none_iff hc v).mp hnone, .raised _, .raised _,
      .succeeded _ (.vrd v ra x hx hvalid hguard hin)]
  | vdel v =>
    obtain ⟨hnone, rfl⟩ | ⟨x, hx, ⟨-, rfl⟩ | ⟨hguard, rfl⟩⟩ := exec_vdel_cases h
    exacts [.lacking fun hc => (State.vault?_eq_none_iff hc v).mp hnone, .raised _,
      .succeeded _ (.vdel v x hx hguard)]

/-- No command is refused: every arm ends by `respond` or by `raise` (60_exceptions.md R114). -/
theorem exec_exists_next (i : Instr) (s : State) : ∃ t, exec i s = .next t := by
  cases i
  all_goals
    simp only [exec, execNop, execLi, execLih, execGetr, execRdc, execStb, execLdb, execStw, execLdw, execCfgsbox,
      execCfgsync, execXform, execSbld, execSbrel, execSbrand, execSbst, execSblen, execVnew, execGacq, execGrel,
      execVrd, execVdel]
    repeat' split
    all_goals exact ⟨_, rfl⟩

/-! ## The four kinds of step -/

/-- A step is idle, a reset, the rejection of a word, or a command (log entry 2; 30_encoding.md R50, R52). -/
inductive Stepped (s : State) : State → Prop where
  | idle (hport : s.port = []) : Stepped s s
  | reset (rest : List HostInput) (hport : s.port = .reset :: rest) :
    Stepped s (State.takeReset { s with port := rest })
  | rejected (w : Word) (rest : List HostInput) (hport : s.port = .command w :: rest) :
    Stepped s (State.complete { s with port := rest } .illegalCommand 0#32)
  | ran {t : State} (i : Instr) (w : Word) (rest : List HostInput) (hport : s.port = .command w :: rest)
    (h : exec i { s with port := rest } = .next t) : Stepped s t

theorem step_idle {s : State} (h : s.port = []) : step s = .next s := by
  simp only [step, runPort, State.nextInput?, h]

theorem step_reset {s : State} {rest : List HostInput} (h : s.port = .reset :: rest) :
    step s = .next (State.takeReset { s with port := rest }) := by
  simp only [step, runPort, State.nextInput?, h, runInput]

/-- Every step is of one of the four kinds. -/
theorem stepped_of_step {s t : State} (h : step s = .next t) : Stepped s t := by
  cases hport : s.port with
  | nil =>
    obtain rfl := Host.Outcome.next.inj ((step_idle hport).symm.trans h)
    exact .idle hport
  | cons x rest =>
    cases x with
    | reset =>
      obtain rfl := Host.Outcome.next.inj ((step_reset hport).symm.trans h)
      exact .reset rest hport
    | command w =>
      have hrun := (step_command hport).symm.trans h
      cases hd : decode s.params w with
      | ok i => exact .ran i w rest hport ((runWord_of_decode_ok (s := { s with port := rest }) hd).symm.trans hrun)
      | error e =>
        rw [raise_eq_next.mp ((runWord_of_decode_error (s := { s with port := rest }) hd).symm.trans hrun)]
        exact .rejected w rest hport

theorem runWord_exists_next (w : Word) (s : State) : ∃ t, runWord w s = .next t := by
  cases hd : decode s.params w with
  | ok i => rw [runWord_of_decode_ok hd]; exact exec_exists_next i s
  | error e => exact ⟨_, runWord_of_decode_error hd⟩

/-! ## What no command touches -/

theorem Effect.sameHost {s u : State} {i : Instr} (h : Effect s i u) : SameHost s u := by
  cases h <;> exact ⟨rfl, rfl, rfl⟩

theorem exec_sameHost {i : Instr} {s t : State} (h : exec i s = .next t) : SameHost s t := by
  cases exec_commandEnd h with
  | succeeded v heff => exact ⟨heff.sameHost.params, heff.sameHost.port, heff.sameHost.resets⟩
  | raised e => exact ⟨rfl, rfl, rfl⟩
  | lacking => exact ⟨rfl, rfl, rfl⟩

/-! ## What the updates do to the invariant -/

theorem Slot.inv_free (cap : Nat) (fill : Byte) : (Slot.free cap fill).Inv cap where
  size := List.length_replicate
  freeSlot _ := ⟨rfl, fill, rfl⟩
  liveSlot h := nomatch h

theorem Slot.inv_live {cap : Nat} {vs : List Byte} (h : vs.length ≤ cap) : (Slot.live cap vs).Inv cap where
  size := Slot.live_bytes_length h
  freeSlot h := nomatch h
  liveSlot _ := ⟨h, fun i hi => by rw [Slot.byte_live]; exact dif_neg (Nat.not_lt.mpr hi)⟩

/-- R89: a refill of its `LEN` bytes keeps a live slot's form. -/
theorem Slot.Inv.refill {cap : Nat} {sl : Slot} (h : sl.Inv cap) (hlive : sl.valid = true) {vs : List Byte}
    (hvs : vs.length = sl.len) : (sl.refill vs).Inv cap where
  size := by
    have hlen := (h.liveSlot hlive).1
    have hsize := h.size
    simp only [Slot.refill, List.length_append, List.length_drop]
    omega
  freeSlot hfree := absurd (hlive.symm.trans hfree) (by decide)
  liveSlot _ := ⟨(h.liveSlot hlive).1, fun i hi => by
    rw [Slot.byte_refill, dif_neg (by rw [hvs]; exact Nat.not_lt.mpr hi)]
    exact (h.liveSlot hlive).2 i hi⟩

/-- The vault invariant asks nothing of a vault that exists. -/
theorem Vault.inv_of_valid {x : Vault} (h : x.valid = true) : x.Inv :=
  ⟨fun habsent => absurd (h.symm.trans habsent) (by decide)⟩

theorem Vault.inv_absent : Vault.absent.Inv := ⟨fun _ => ⟨rfl, rfl, rfl⟩⟩

section

variable {s t : State} (h : s.Inv)
include h

/-- The invariant speaks of these five fields only. -/
theorem State.Inv.of_same (hparams : t.params = s.params) (hxmem : t.xmem = s.xmem) (hslots : t.slots = s.slots)
    (hvaults : t.vaults = s.vaults) (hengine : t.engine = s.engine) : t.Inv where
  params := by rw [hparams]; exact h.params
  xmem := by rw [hparams, hxmem]; exact h.xmem
  slotCount := by rw [hparams, hslots]; exact h.slotCount
  slots := by rw [hparams, hslots]; exact h.slots
  vaultCount := by rw [hparams, hvaults]; exact h.vaultCount
  vaults := by rw [hvaults]; exact h.vaults
  engine := by rw [hengine]; exact h.engine

theorem State.Inv.storeBytes {a : Word} {n : Nat} (hin : s.InRange a n) {vs : List Byte} (hvs : vs.length = n) :
    (s.storeBytes a.toNat vs).Inv where
  params := h.params
  xmem := Memory.putAll_wf vs h.xmem (by subst hvs; exact hin.imp_left List.eq_nil_of_length_eq_zero)
  slotCount := h.slotCount
  slots := h.slots
  vaultCount := h.vaultCount
  vaults := h.vaults
  engine := h.engine

/-- R84, R71: the transform is stored in range and leaves the engine wiped. -/
theorem State.Inv.transformXmem (key : Key) {a : Word} (c : Nat) {n : Nat} (hin : s.InRange a n) :
    (s.transformXmem key a.toNat c n).Inv where
  params := h.params
  xmem := (h.storeBytes hin ((Engine.transform_length _ _ _ _ s.engine).trans (s.xmemBytes_length c n))).xmem
  slotCount := h.slotCount
  slots := h.slots
  vaultCount := h.vaultCount
  vaults := h.vaults
  engine := rfl

theorem State.Inv.rngAdvance (n : Nat) : (s.rngAdvance n).Inv := h.of_same rfl rfl rfl rfl rfl

theorem State.Inv.setSlot (b : SlotIx) {sl : Slot} (hsl : sl.Inv s.params.sbCap) : (s.setSlot b sl).Inv where
  params := h.params
  xmem := h.xmem
  slotCount := List.length_set.trans h.slotCount
  slots sl' hmem := by
    obtain hold | rfl := List.mem_or_eq_of_mem_set hmem
    exacts [h.slots sl' hold, hsl]
  vaultCount := h.vaultCount
  vaults := h.vaults
  engine := h.engine

theorem State.Inv.setVault (v : VaultIx) {x : Vault} (hx : x.Inv) : (s.setVault v x).Inv where
  params := h.params
  xmem := h.xmem
  slotCount := h.slotCount
  slots := h.slots
  vaultCount := List.length_set.trans h.vaultCount
  vaults x' hmem := by
    obtain hold | rfl := List.mem_or_eq_of_mem_set hmem
    exacts [h.vaults x' hold, hx]
  engine := h.engine

end

theorem State.afterReset_inv {p : Params} (hp : p.Legal) (n : Nat) : (State.afterReset p n).Inv where
  params := hp
  xmem := ⟨.nil, fun _ hc => nomatch hc⟩
  slotCount := List.length_replicate
  slots sl hsl := by rw [State.afterReset_slots_mem hsl]; exact Slot.inv_free _ _
  vaultCount := List.length_replicate
  vaults x hx := by rw [State.afterReset_vaults_mem hx]; exact Vault.inv_absent
  engine := rfl

theorem State.Inv.takeReset {s : State} (h : s.Inv) : s.takeReset.Inv where
  params := h.params
  xmem := Memory.afterReset_wf h.xmem _
  slotCount := (State.afterReset_inv h.params (s.resets + 1)).slotCount
  slots := (State.afterReset_inv h.params (s.resets + 1)).slots
  vaultCount := (State.afterReset_inv h.params (s.resets + 1)).vaultCount
  vaults := (State.afterReset_inv h.params (s.resets + 1)).vaults
  engine := rfl

/-- The effect of a command keeps the invariant: what it stores is in range, and what it puts into a slot or a vault
is in form. -/
theorem Effect.inv {s u : State} {i : Instr} (h : Effect s i u) (hs : s.Inv) : u.Inv := by
  cases h with
  | nop | getr | rdc | sblen => exact hs
  | li | lih | ldb | ldw | cfgsbox | cfgsync => exact hs.of_same rfl rfl rfl rfl rfl
  | stb ra imm hin => exact (hs.storeBytes hin (vs := [imm]) rfl).of_same rfl rfl rfl rfl rfl
  | stw ra rb hin => exact hs.storeBytes hin (wordBytes_length _)
  | xform rd rs rn ks key hkey hsrc hdst hapart => exact hs.transformXmem key _ hdst
  | sbld sb ra rn sl hsl hfree hfit hin =>
    have hlive : Slot.Inv s.params.sbCap (.live s.params.sbCap (s.xmemBytes (s.reg ra).toNat (s.reg rn).toNat)) :=
      Slot.inv_live (by rwa [State.xmemBytes_length])
    exact (hs.setSlot sb hlive).storeBytes hin List.length_replicate
  | sbrel sb imm => exact hs.setSlot sb (Slot.inv_free _ imm)
  | sbrand sb sl hsl hlive =>
    have hrefill := (hs.slots sl (List.mem_of_getElem? hsl)).refill hlive (s.rngBytes_length sl.len)
    exact (hs.setSlot sb hrefill).rngAdvance _
  | sbst sb ra sl hsl hlive hin => exact hs.storeBytes hin sl.content_length
  | vnew v sb x sl =>
    have hlocked : Vault.Inv (.lock { x with valid := true, guard := false, data := sl.paddedKey } s.rngPad) :=
      Vault.inv_of_valid (Vault.lock_valid _ _)
    exact ((hs.setSlot sb (Slot.inv_free _ _)).setVault v hlocked).rngAdvance 32
  | gacq v x hx hvalid =>
    have hopened : Vault.Inv { x.unlock with guard := true } :=
      Vault.inv_of_valid (by simp only [Vault.unlock_valid, hvalid])
    exact hs.setVault v hopened
  | grel v x hx hvalid =>
    have hrelocked : Vault.Inv { x.lock s.rngPad with guard := false } :=
      Vault.inv_of_valid (by simp only [Vault.lock_valid, hvalid])
    exact (hs.setVault v hrelocked).rngAdvance 32
  | vrd v ra x hx hvalid hguard hin => exact hs.storeBytes hin Vector.length_toList
  | vdel v x hx hguard => exact hs.setVault v ⟨fun _ => ⟨hguard, rfl, rfl⟩⟩

theorem exec_inv {i : Instr} {s t : State} (hs : s.Inv) (h : exec i s = .next t) : t.Inv := by
  cases exec_commandEnd h with
  | succeeded v heff => exact (heff.inv hs).of_same rfl rfl rfl rfl rfl
  | raised e => exact hs.of_same rfl rfl rfl rfl rfl
  | lacking => exact hs.of_same rfl rfl rfl rfl rfl

theorem Stepped.inv {s t : State} (h : Stepped s t) (hs : s.Inv) : t.Inv := by
  have hrest (rest : List HostInput) : State.Inv { s with port := rest } := hs.of_same rfl rfl rfl rfl rfl
  cases h with
  | idle => exact hs
  | reset rest => exact (hrest rest).takeReset
  | rejected w rest => exact hs.of_same rfl rfl rfl rfl rfl
  | ran i w rest hport h => exact exec_inv (hrest rest) h

/-! ## The obligations -/

/-- Settles O6: a word that decodes is run as its command. -/
theorem stepRunsTheDecodedCommand : Obligations.StepRunsTheDecodedCommand :=
  fun _ _ _ _ hport hd => (step_command hport).trans (runWord_of_decode_ok hd)

/-- Settles O7: an empty port gives no input to take. -/
theorem stepWithoutInputChangesNothing : Obligations.StepWithoutInputChangesNothing :=
  fun _ hport => step_idle hport

/-- Settles O9: a reset step is `State.takeReset`, which takes every field but `XMEM` from `State.afterReset`. -/
theorem resetInputGivesTheResetValues : Obligations.ResetInputGivesTheResetValues := by
  intro s rest hport
  refine ⟨_, step_reset hport, State.afterReset_reg s.params (s.resets + 1), rfl, rfl,
    State.afterReset_sboxEntry s.params (s.resets + 1), rfl, List.length_replicate, fun sl hsl => ?_,
    List.length_replicate, fun x hx => ?_, rfl, rfl, State.xmemByte_takeReset _, rfl, rfl, rfl, rfl⟩
  · obtain rfl := State.afterReset_slots_mem (n := s.resets + 1) hsl
    exact ⟨rfl, rfl, rfl⟩
  · obtain rfl := State.afterReset_vaults_mem (n := s.resets + 1) hx
    exact ⟨rfl, rfl, rfl, rfl⟩

/-- Settles O10: the state after reset meets the invariant for all legal parameters, and the defaults are legal. -/
theorem resetStateMeetsTheInvariant : Obligations.ResetStateMeetsTheInvariant :=
  State.afterReset_inv (by decide) 0

/-- Settles O11: each kind of step keeps the invariant, a command because its effect does. -/
theorem everyStepKeepsTheInvariant : Obligations.EveryStepKeepsTheInvariant :=
  fun _ _ hs h => (stepped_of_step h).inv hs

/-- Settles O12: no command is refused, and the other kinds of step are next states at once. -/
theorem everyStepEndsInANextState : Obligations.EveryStepEndsInANextState := by
  intro s
  match hport : s.port with
  | [] => exact ⟨_, step_idle hport⟩
  | .reset :: rest => exact ⟨_, step_reset hport⟩
  | .command w :: rest => rw [step_command hport]; exact runWord_exists_next w _

/-- Settles O13: the port loses the input taken, and no command touches it or the parameters. -/
theorem stepKeepsParametersAndTakesOneInput : Obligations.StepKeepsParametersAndTakesOneInput := by
  intro s t h
  cases stepped_of_step h with
  | idle hport => simp [hport]
  | reset rest hport => simp [hport]
  | rejected w rest hport => simp [hport]
  | ran i w rest hport h => simp [(exec_sameHost h).params, (exec_sameHost h).port, hport]

end Sys2Proof.Machine
end

section
/-! SUPPORT. Proofs of the rules about the whole machine that speak of one run: which error a command can end with, what
it may write and draw (10_state.md, 60_exceptions.md section 1), and what becomes of a vault's key (10_state.md section
7). -/

namespace Sys2Proof.Machine

/-! ## Commands that name what the state lacks (log entry 8) -/

section

variable {s : State} {sb : SlotIx} {v : VaultIx}

theorem fails_xform_of_illegal_key {ks : KeySrc} (hc : s.Counted) (hks : keySrcLegal s.params ks = false)
    (rd rs rn : Reg) : Fails (.xform rd rs rn ks) s .illegalCommand := by
  refine fails_xform_of_keyOf_error ?_
  cases ks with
  | slot b => simp only [State.keyOf, (State.slot?_eq_none_iff hc b).mpr hks]
  | vault v => simp only [State.keyOf, (State.vault?_eq_none_iff hc v).mpr hks]

theorem fails_vnew_of_lacking (h : s.vault? v = none ∨ s.slot? sb = none) : Fails (.vnew v sb) s .illegalCommand := by
  obtain hv | hsb := h
  · simp only [Fails, exec, execVnew, hv]
    rfl
  · cases hv : s.vault? v <;> simp only [Fails, exec, execVnew, hv, hsb] <;> rfl

/-- A command with a slot or vault number out of range is answered with `IllegalCommand`. -/
theorem fails_of_not_wellFormed {i : Instr} (hc : s.Counted) (hi : i.wellFormed s.params = false) :
    Fails i s .illegalCommand := by
  have hslot (b : SlotIx) (hb : slotLegal s.params b = false) := (State.slot?_eq_none_iff hc b).mpr hb
  have hvault (v : VaultIx) (hv : vaultLegal s.params v = false) := (State.vault?_eq_none_iff hc v).mpr hv
  cases i with
  | xform rd rs rn ks => exact fails_xform_of_illegal_key hc hi rd rs rn
  | sbld b ra rn => simp only [Fails, exec, execSbld, hslot b hi]; rfl
  | sbrel b imm => simp only [Fails, exec, execSbrel, hslot b hi]; rfl
  | sbrand b => simp only [Fails, exec, execSbrand, hslot b hi]; rfl
  | sbst b ra => simp only [Fails, exec, execSbst, hslot b hi]; rfl
  | sblen b => simp only [Fails, exec, execSblen, hslot b hi]; rfl
  | vnew v b => exact fails_vnew_of_lacking ((Bool.and_eq_false_iff.mp hi).imp (hvault v) (hslot b))
  | gacq v => simp only [Fails, exec, execGacq, hvault v hi]; rfl
  | grel v => simp only [Fails, exec, execGrel, hvault v hi]; rfl
  | vrd v ra => simp only [Fails, exec, execVrd, hvault v hi]; rfl
  | vdel v => simp only [Fails, exec, execVdel, hvault v hi]; rfl
  | _ => exact nomatch hi

end

/-! ## What an effect writes and draws -/

section

variable {s u : State} {i : Instr} (h : Effect s i u)
include h

/-- 10_state.md R6. -/
theorem Effect.reg_of_not_written {r : Reg} (hr : writtenReg i ≠ some r) : u.reg r = s.reg r := by
  cases h with
  | li rd | lih rd | ldw rd => exact (State.reg_setReg _ _ _ _).trans (if_neg fun he => hr (congrArg some he))
  | stb ra | ldb ra => exact (State.reg_bumpReg _ _ _).trans (if_neg fun he => hr (congrArg some he))
  | _ => rfl

/-- 10_state.md R8. -/
theorem Effect.sync_of_not_written (hi : ∀ ra rb, i ≠ .cfgsync ra rb) : u.sync0 = s.sync0 ∧ u.sync1 = s.sync1 := by
  cases h with
  | cfgsync ra rb => exact absurd rfl (hi ra rb)
  | _ => exact ⟨rfl, rfl⟩

/-- 10_state.md R9. -/
theorem Effect.sbox_of_not_written (hi : ∀ ra rn, i ≠ .cfgsbox ra rn) : u.sbox = s.sbox := by
  cases h with
  | cfgsbox ra rn => exact absurd rfl (hi ra rn)
  | _ => rfl

/-- 10_state.md section 4. -/
theorem Effect.engine_of_not_written (hi : ∀ rd rs rn ks, i ≠ .xform rd rs rn ks) : u.engine = s.engine := by
  cases h with
  | xform rd rs rn ks => exact absurd rfl (hi rd rs rn ks)
  | _ => rfl

/-- 20_memory.md R35. -/
theorem Effect.sameXmemOutside : SameXmemOutside s u (writtenXmem i s).1 (writtenXmem i s).2 := by
  intro x hx
  cases h with
  | stb ra imm => exact State.xmemByte_storeBytes_outside_of_length _ _ 1 rfl hx
  | stw ra rb => exact State.xmemByte_storeBytes_outside_of_length _ _ 4 (wordBytes_length _) hx
  | xform rd rs rn ks key => exact State.xmemByte_transformXmem_outside _ _ _ _ _ hx
  | sbld sb ra rn => exact State.xmemByte_storeBytes_outside_of_length _ _ _ List.length_replicate hx
  | sbst sb ra sl hsl =>
    simp only [writtenXmem, hsl] at hx
    exact State.xmemByte_storeBytes_outside_of_length _ _ _ sl.content_length hx
  | vrd v ra x => exact State.xmemByte_storeBytes_outside_of_length _ _ 32 Vector.length_toList hx
  | _ => rfl

/-- 10_state.md R13. -/
theorem Effect.slot_of_not_written {j : Nat} (hj : ∀ b : SlotIx, writtenSlot i = some b → j ≠ b.val) :
    u.slots[j]? = s.slots[j]? := by
  cases h with
  | sbld sb | sbrel sb | sbrand sb | vnew v sb => exact State.slots_setSlot_of_ne (hj sb rfl) _
  | _ => rfl

/-- 10_state.md R23. -/
theorem Effect.sameRng_of_not_mayDraw (hi : mayDraw i = false) : SameRng s u := by
  cases h with
  | sbrand | vnew | grel => exact nomatch hi
  | _ => exact ⟨rfl, rfl⟩

end

/-! ## The plaintext key of a vault -/

/-- 10_state.md section 7: an update of a vault that exists before and after keeps its plaintext key. Unlocking moves
the key `DATA xor MASK` into `DATA`; relocking XORs the pad in and keeps it as the mask. -/
theorem VaultUpdate.plainKey_eq {s : State} {x y : Vault} {i : Instr} {v : VaultIx} (h : VaultUpdate s x i v y)
    (hx : x.valid = true) (hy : y.valid = true) : y.plainKey = x.plainKey := by
  cases h with
  | created v sb sl habsent => exact absurd (hx.symm.trans habsent) (by decide)
  | unlocked v hvalid hguard =>
    simp only [Vault.plainKey, hguard, Vault.unlock_data, if_true, Bool.false_eq_true, if_false]
  | relocked v hvalid hguard =>
    simp only [Vault.plainKey, hguard, Vault.lock_data, Vault.lock_mask, keyXor_keyXor, if_true, Bool.false_eq_true,
      if_false]
  | erased v hguard => exact nomatch hy

/-! ## The obligations -/

/-- Settles O16: an error is listed for the command, or the state lacks what a well-formed command names, which its
counts rule out. -/
theorem commandsRaiseOnlyTheirListedErrors : Obligations.CommandsRaiseOnlyTheirListedErrors := by
  intro i s t hi hslots hvaults h
  cases exec_commandEnd h with
  | succeeded v heff => exact .inl rfl
  | raised e he => exact .inr he
  | lacking hlack => exact absurd (hi.symm.trans (hlack ⟨hslots, hvaults⟩)) (by decide)

/-- Settles O17: an illegal number names nothing in a state that has the counts of its parameters. -/
theorem illFormedCommandIsIllegal : Obligations.IllFormedCommandIsIllegal :=
  fun _ _ hi hslots hvaults => fails_of_not_wellFormed ⟨hslots, hvaults⟩ hi

/-- Settles O25: the table of the codes. -/
theorem errorCodesAreNumbered : Obligations.ErrorCodesAreNumbered :=
  ⟨rfl, rfl, rfl, rfl, rfl, rfl, fun e => by cases e <;> decide⟩

/-- Settles O55: a step without a command leaves the vaults alone or removes them; a command keeps a vault as it was or
updates it. -/
theorem vaultKeySurvivesEveryStep : Obligations.VaultKeySurvivesEveryStep := by
  intro s t j x y h hx hy hxv hyv
  have hkept (he : s.vaults[j]? = some y) : y.plainKey = x.plainKey := by rw [Option.some.inj (hx.symm.trans he)]
  cases stepped_of_step h with
  | idle => exact hkept hy
  | rejected => exact hkept hy
  | reset rest =>
    obtain rfl := State.afterReset_vaults_mem (n := s.resets + 1) (List.mem_of_getElem? hy)
    exact nomatch hyv
  | ran i w rest hport hexec =>
    obtain rfl | ⟨v, -, hup⟩ := (exec_vaultsStep hexec).eq_or_update hx hy
    exacts [rfl, hup.plainKey_eq hxv hyv]

/-- Settles O58: each effect writes what is listed for its command, and an error writes nothing. -/
theorem stateIsWrittenOnlyByItsCommands : Obligations.StateIsWrittenOnlyByItsCommands := by
  intro i s t h
  cases exec_commandEnd h with
  | succeeded v heff =>
    exact ⟨fun _ => heff.reg_of_not_written, heff.sync_of_not_written, heff.sbox_of_not_written,
      heff.engine_of_not_written, heff.sameXmemOutside, fun _ => heff.slot_of_not_written⟩
  | raised | lacking =>
    exact ⟨fun _ _ => rfl, fun _ => ⟨rfl, rfl⟩, fun _ => rfl, fun _ => rfl, fun _ _ => rfl, fun _ _ => rfl⟩

/-- Settles O59: the effects of the other commands draw nothing, and an error has no effect. -/
theorem onlyThreeCommandsDraw : Obligations.OnlyThreeCommandsDraw := by
  intro i s t h hor
  cases exec_commandEnd h with
  | succeeded v heff =>
    have hsame := heff.sameRng_of_not_mayDraw (hor.resolve_right fun hne => hne rfl)
    exact ⟨hsame.rngIn, hsame.draws⟩
  | raised | lacking => exact ⟨rfl, rfl⟩

end Sys2Proof.Machine
end

section
/-! SUPPORT. Proofs of the statements about what the cipher datapath can undo (40_cipher_datapath.md): the round
function, the block transform, and the transform of a byte sequence, with the `XFORM` that undoes an `XFORM`. -/

namespace Sys2Proof.Machine

/-! ## The round function -/

/-- A word is determined by its nibbles. -/
theorem eq_of_nibble_eq {w w' : Word} (h : ∀ i : Fin 8, nibble w i.val = nibble w' i.val) : w = w' := by
  refine BitVec.eq_of_getLsbD_eq fun j hj => ?_
  have hbit : (nibble w (j / 4)).getLsbD (j % 4) = (nibble w' (j / 4)).getLsbD (j % 4) :=
    congrArg (·.getLsbD (j % 4)) (h ⟨j / 4, by omega⟩)
  simpa only [nibble, BitVec.getLsbD_extractLsb', Nat.div_add_mod, Nat.mod_lt j (by decide : 4 > 0), decide_true,
    Bool.true_and] using hbit

/-- Where each group is injective, a word can be read back from the nibbles of its substitution. -/
theorem subst_injective {t : SBox} (ht : ∀ g : Fin 8, Function.Injective (sboxEntry t g)) :
    Function.Injective (subst t) := fun w w' h =>
  eq_of_nibble_eq fun i => ht i <| by rw [← nibble_subst, ← nibble_subst, h]

theorem rol32_injective {k : Nat} (hk : k ≤ 32) : Function.Injective (rol32 · k) := fun w w' h =>
  BitVec.eq_of_getLsbD_eq fun j hj => by
    rw [← rol32_getLsbD w hk hj, ← rol32_getLsbD w' hk hj]
    exact congrArg (·.getLsbD ((j + k) % 32)) h

/-! ## The block transform -/

/-- 40_cipher_datapath.md R62: a round keeps `A`, and with it what it XORs into `B`. -/
theorem cipherRound_injective (t : SBox) (k : Word) : Function.Injective (cipherRound t k) := by
  rintro ⟨a, b⟩ ⟨a', b'⟩ h
  obtain ⟨hxor, rfl⟩ := Prod.mk.inj h
  exact congrArg (Prod.mk a) ((BitVec.xor_right_inj _).mp hxor)

theorem finalRound_injective (t : SBox) (k : Word) : Function.Injective (finalRound t k) := by
  rintro ⟨a, b⟩ ⟨a', b'⟩ h
  obtain ⟨rfl, hxor⟩ := Prod.mk.inj h
  exact congrArg (Prod.mk a) ((BitVec.xor_left_inj _).mp hxor)

theorem cipherRounds_injective (t : SBox) (k : Vector Word 8) (n : Nat) : Function.Injective (cipherRounds t k n) := by
  induction n with
  | zero => exact Function.injective_id
  | succ n ih => exact (cipherRound_injective t _).comp ih

theorem cipherBlock_injective (t : SBox) (k : Vector Word 8) : Function.Injective (cipherBlock t k) :=
  (finalRound_injective t _).comp (cipherRounds_injective t k 31)

/-! ## The transform of a byte sequence -/

/-- Byte `j` of the whole keystream, which does not depend on the source (40_cipher_datapath.md R66 to R68). -/
def keystreamAt (t : SBox) (sync : Word × Word) (key : Key) (j : Nat) : Byte :=
  keystreamByte (cipherBlock t (keyWords key) (advance^[j / 8 + 1] (cipherBlock t (keyWords key) sync))) (j % 8)

/-- The transform combines each byte of the source with the keystream byte at its place. -/
theorem transform_getElem? (t : SBox) (sync : Word × Word) (key : Key) (src : List Byte) (j : Nat) :
    (transform t sync key src)[j]? = src[j]?.map (· ^^^ keystreamAt t sync key j) := by
  obtain ⟨hlen, hbyte⟩ := transformIsCounterKeystream.2 t sync key src
  rcases Nat.lt_or_ge j src.length with hj | hj
  · rw [hbyte j hj, List.getElem?_eq_getElem hj, Option.map_some, keystreamAt]
  · rw [List.getElem?_eq_none (hlen ▸ hj), List.getElem?_eq_none hj, Option.map_none]

theorem transform_transform (t : SBox) (sync : Word × Word) (key : Key) (src : List Byte) :
    transform t sync key (transform t sync key src) = src := by
  refine List.ext_getElem? fun j => ?_
  rw [transform_getElem?, transform_getElem?, Option.map_map]
  have hself : (· ^^^ keystreamAt t sync key j) ∘ (· ^^^ keystreamAt t sync key j) = id :=
    funext fun v => by simp only [Function.comp_apply, BitVec.xor_assoc, BitVec.xor_self, BitVec.xor_zero, id]
  rw [hself, Option.map_id, id]

/-- A transform in place, after a command that transformed a range to there, gives the range's bytes back. -/
theorem State.transformXmem_undo (s : State) (key : Key) (d c n : Nat) (e : ErrCode) (v : Word) :
    (((s.transformXmem key d c n).complete e v).transformXmem key d d n).xmemBytes d n = s.xmemBytes c n := by
  have hread : ((s.transformXmem key d c n).complete e v).xmemBytes d n =
      (s.transformXmem key d c n).xmemBytes d n := rfl
  rw [State.xmemBytes_transformXmem, hread, State.xmemBytes_transformXmem]
  exact transform_transform s.sbox (s.sync0, s.sync1) key (s.xmemBytes c n)

/-! ## The obligations -/

/-- Settles O37: substitution by a permutation table and rotation are injective, and words are finitely many. -/
theorem roundFunctionIsABijection : Obligations.RoundFunctionIsABijection := fun _ ht =>
  Finite.injective_iff_bijective.mp ((rol32_injective (by decide)).comp (subst_injective ht))

/-- Settles O38: every round is injective whatever the table, and pairs of words are finitely many. -/
theorem blockTransformIsABijection : Obligations.BlockTransformIsABijection := fun t k =>
  Finite.injective_iff_bijective.mp (cipherBlock_injective t k)

/-- Settles O43: the keystream, XORed in twice, is gone. -/
theorem transformIsSelfInverse : Obligations.TransformIsSelfInverse := transform_transform

/-- Settles O44: the keystream byte at a place does not depend on what stands at other places. -/
theorem transformOfPrefixIsPrefix : Obligations.TransformOfPrefixIsPrefix := by
  intro t sync key src m
  refine List.ext_getElem? fun j => ?_
  rw [transform_getElem?, List.getElem?_take, List.getElem?_take, transform_getElem?]
  split <;> rfl

/-- Settles O34: the first `XFORM` leaves the key source, the registers and the cipher's configuration alone, and a
range never overlaps itself; so the second completes and transforms the transform of the first's source. -/
theorem xformInPlaceUndoesXform : Obligations.XformInPlaceUndoesXform := by
  intro rd rs rn ks s t h hok
  obtain ⟨e, hk, rfl⟩ | ⟨key, hkey, ⟨-, rfl⟩ | ⟨-, -, -, rfl⟩ | ⟨-, hdst, -, rfl⟩⟩ := exec_xform_cases h
  · exact absurd hok (State.keyOf_error_ne_success hk)
  · exact nomatch hok
  · exact nomatch hok
  · have hkey' : ((s.transformXmem key (s.reg rd).toNat (s.reg rs).toNat (s.reg rn).toNat).complete .success 0#32).keyOf
        ks = .ok key := by
      cases ks <;> exact hkey
    exact ⟨_, exec_xform_of_key hkey' hdst hdst fun ⟨_, hne, _⟩ => hne rfl, rfl, s.transformXmem_undo key _ _ _ _ _⟩

end Sys2Proof.Machine
end

section
/-! SUPPORT. Proof of the statement about what no command lets out (60_exceptions.md section 4): two runs of a command,
from states that differ in secrets only, take the same branches and leave states that look the same. -/

namespace Sys2Proof.Machine

/-! ## Slots and vaults that look the same -/

/-- Lists with the same image have their members in the same places, with the same image. -/
theorem getElem?_cases_of_map_eq {α β : Type} {f : α → β} {l l' : List α} (h : l'.map f = l.map f) (j : Nat) :
    (l[j]? = none ∧ l'[j]? = none) ∨ ∃ x x', l[j]? = some x ∧ l'[j]? = some x' ∧ f x' = f x := by
  have hj : l'[j]?.map f = l[j]?.map f := by rw [← List.getElem?_map, h, List.getElem?_map]
  cases hx : l[j]? with
  | none => exact .inl ⟨rfl, Option.map_eq_none_iff.mp (hj.trans (by rw [hx, Option.map_none]))⟩
  | some x =>
    obtain ⟨x', hx', hf⟩ := Option.map_eq_some_iff.mp (hj.trans (by rw [hx, Option.map_some]))
    exact .inr ⟨x, x', rfl, hx', hf⟩

theorem Slot.isSome_view (sl : Slot) : sl.view.isSome = sl.valid := by
  cases hvalid : sl.valid <;> simp [Slot.view, hvalid]

section

variable {sl sl' : Slot} (h : sl'.view = sl.view)
include h

theorem Slot.valid_eq_of_view : sl'.valid = sl.valid := by
  rw [← sl.isSome_view, ← sl'.isSome_view, h]

theorem Slot.len_content_eq_of_view (hlive : sl.valid = true) : sl'.len = sl.len ∧ sl'.content = sl.content := by
  have hlive' := (Slot.valid_eq_of_view h).trans hlive
  simp only [Slot.view, hlive, hlive', if_true, Option.some.injEq, Prod.mk.injEq] at h
  exact h

theorem Slot.byte_eq_of_view (hlive : sl.valid = true) {i : Nat} (hi : i < sl.len) : sl'.byte i = sl.byte i := by
  obtain ⟨hlen, hcontent⟩ := Slot.len_content_eq_of_view h hlive
  rw [← sl.content_getElem i (by rwa [sl.content_length]), ← sl'.content_getElem i (by rwa [sl'.content_length, hlen])]
  simp only [hcontent]

theorem Slot.key_eq_of_view (hlive : sl.valid = true) (hlen : sl.len = 32) : sl'.key = sl.key :=
  Vector.ext fun i hi => by
    rw [Slot.key_getElem _ _ hi, Slot.key_getElem _ _ hi, Slot.byte_eq_of_view h hlive (hlen ▸ hi)]

end

theorem Slot.view_eq_of_bytes {sl sl' : Slot} (hvalid : sl'.valid = sl.valid) (hlen : sl'.len = sl.len)
    (hbyte : ∀ i, i < sl.len → sl'.byte i = sl.byte i) : sl'.view = sl.view := by
  have hcontent : sl'.content = sl.content := by
    simp only [Slot.content, hlen]
    exact List.map_congr_left fun i hi => hbyte i (List.mem_range.mp hi)
  simp only [Slot.view, hvalid, hlen, hcontent]

theorem Vault.data_eq_of_openKey {x x' : Vault} (h : x'.openKey = x.openKey) (hvalid : x.valid = true)
    (hguard : x.guard = true) : x'.data = x.data := by
  have hx : x.openKey = some x.data := if_pos ⟨hvalid, hguard⟩
  rw [hx] at h
  simp only [Vault.openKey] at h
  split at h
  · exact Option.some.inj h
  · exact nomatch h

/-! ## Reading from states that look the same -/

section

variable {s s' : State} (h : LooksSame s s')
include h

theorem LooksSame.reg_eq (r : Reg) : s'.reg r = s.reg r := h.regs r

theorem LooksSame.inRange_iff (r : Reg) (n : Nat) : s'.InRange (s'.reg r) n ↔ s.InRange (s.reg r) n := by
  simp only [State.InRange, h.reg_eq, h.params]

theorem LooksSame.xmemBytes_eq (a n : Nat) : s'.xmemBytes a n = s.xmemBytes a n :=
  State.xmemBytes_congr fun _ _ => h.xmem _

theorem LooksSame.loadWord_eq (a : Nat) : s'.loadWord a = s.loadWord a := by
  simp only [State.loadWord, h.xmem _]

theorem LooksSame.tableMalformed_eq (a : Nat) : s'.tableMalformed a = s.tableMalformed a := by
  simp only [State.tableMalformed, h.xmem _]

theorem LooksSame.slot?_cases (b : SlotIx) : (s.slot? b = none ∧ s'.slot? b = none) ∨
    ∃ sl sl', s.slot? b = some sl ∧ s'.slot? b = some sl' ∧ sl'.view = sl.view :=
  getElem?_cases_of_map_eq h.slots b.val

theorem LooksSame.vault?_cases (v : VaultIx) : (s.vault? v = none ∧ s'.vault? v = none) ∨
    ∃ x x', s.vault? v = some x ∧ s'.vault? v = some x' ∧ x'.valid = x.valid ∧ x'.guard = x.guard := by
  simpa only [State.vault?, Vault.view, Prod.mk.injEq] using getElem?_cases_of_map_eq h.vaults v.val

theorem LooksSame.slotValid_eq : s'.slotValid = s.slotValid := funext fun b => by
  rw [State.slotValid_eq, State.slotValid_eq]
  obtain ⟨hb, hb'⟩ | ⟨sl, sl', hb, hb', hview⟩ := getElem?_cases_of_map_eq h.slots b
  · rw [hb, hb']
  · rw [hb, hb', Option.map_some, Option.map_some, Slot.valid_eq_of_view hview]

theorem LooksSame.vaultValid_eq : s'.vaultValid = s.vaultValid := funext fun v => by
  rw [State.vaultValid_eq, State.vaultValid_eq]
  obtain ⟨hv, hv'⟩ | ⟨x, x', hv, hv', hview⟩ := getElem?_cases_of_map_eq h.vaults v
  · rw [hv, hv']
  · rw [hv, hv', Option.map_some, Option.map_some]
    exact congrArg Prod.fst hview

theorem LooksSame.vaultGuard_eq : s'.vaultGuard = s.vaultGuard := funext fun v => by
  rw [State.vaultGuard_eq, State.vaultGuard_eq]
  obtain ⟨hv, hv'⟩ | ⟨x, x', hv, hv', hview⟩ := getElem?_cases_of_map_eq h.vaults v
  · rw [hv, hv']
  · rw [hv, hv', Option.map_some, Option.map_some]
    exact congrArg Prod.snd hview

theorem LooksSame.csr_eq (c : Csr) : s'.csr c = s.csr c := by
  cases c with
  | id => rfl
  | status => simp only [State.csr, State.status, h.vaultGuard_eq, h.vaultValid_eq, h.slotValid_eq, h.lastErr]
  | sync0 => exact h.sync0
  | sync1 => exact h.sync1
  | config | xmemsz => simp only [State.csr, h.params]

/-! ## Updates of states that look the same -/

theorem LooksSame.complete (e : ErrCode) (v : Word) : LooksSame (s.complete e v) (s'.complete e v) :=
  { h with lastErr := rfl, response := rfl }

theorem LooksSame.setReg (r : Reg) (v : Word) : LooksSame (s.setReg r v) (s'.setReg r v) :=
  { h with regs := fun q => by rw [State.reg_setReg, State.reg_setReg, h.reg_eq] }

theorem LooksSame.bumpReg (r : Reg) : LooksSame (s.bumpReg r) (s'.bumpReg r) :=
  { h with regs := fun q => by rw [State.reg_bumpReg, State.reg_bumpReg, h.reg_eq, h.reg_eq] }

theorem LooksSame.storeBytes (r : Reg) {vs vs' : List Byte} (hvs : vs' = vs) :
    LooksSame (s.storeBytes (s.reg r).toNat vs) (s'.storeBytes (s'.reg r).toNat vs') :=
  { h with
    xmem := fun x => by
      subst hvs
      rw [h.reg_eq, State.xmemByte_storeBytes, State.xmemByte_storeBytes, h.xmem] }

theorem LooksSame.setSlot (b : SlotIx) {sl sl' : Slot} (hsl : sl'.view = sl.view) :
    LooksSame (s.setSlot b sl) (s'.setSlot b sl') :=
  { h with slots := by rw [State.setSlot_slots, State.setSlot_slots, List.map_set, List.map_set, h.slots, hsl] }

theorem LooksSame.setVault (v : VaultIx) {x x' : Vault} (hvalid : x'.valid = x.valid) (hguard : x'.guard = x.guard) :
    LooksSame (s.setVault v x) (s'.setVault v x') :=
  { h with
    vaults := by
      rw [State.setVault_vaults, State.setVault_vaults, List.map_set, List.map_set, h.vaults, Vault.view, Vault.view,
        hvalid, hguard] }

theorem LooksSame.rngAdvance (n n' : Nat) : LooksSame (s.rngAdvance n) (s'.rngAdvance n') := { h with }

theorem LooksSame.with_sbox (t t' : SBox) : LooksSame { s with sbox := t } { s' with sbox := t' } := { h with }

theorem LooksSame.with_sync {a a' b b' : Word} (ha : a' = a) (hb : b' = b) :
    LooksSame { s with sync0 := a, sync1 := b } { s' with sync0 := a', sync1 := b' } :=
  { h with sync0 := ha, sync1 := hb }

end

/-! ## What depends on more than looks -/

section

variable {s s' : State} (h : DifferOnlyInSecrets s s')
include h

theorem DifferOnlyInSecrets.vault?_cases (v : VaultIx) : (s.vault? v = none ∧ s'.vault? v = none) ∨
    ∃ x x', s.vault? v = some x ∧ s'.vault? v = some x' ∧ x'.valid = x.valid ∧ x'.guard = x.guard ∧
      (x.valid = true → x.guard = true → x'.data = x.data) := by
  refine (h.looks.vault?_cases v).imp_right ?_
  rintro ⟨x, x', hx, hx', hvalid, hguard⟩
  obtain ⟨hn, -⟩ | ⟨y, y', hy, hy', hopen⟩ := getElem?_cases_of_map_eq h.openKeys v.val
  · exact nomatch hx.symm.trans hn
  · obtain rfl := Option.some.inj (hx.symm.trans hy)
    obtain rfl := Option.some.inj (hx'.symm.trans hy')
    exact ⟨x, x', hx, hx', hvalid, hguard, Vault.data_eq_of_openKey hopen⟩

/-- A key source gives the same key, or is refused with the same error: a key that is let out is the content of a live
slot or the data of an open vault. -/
theorem DifferOnlyInSecrets.keyOf_eq (ks : KeySrc) : s'.keyOf ks = s.keyOf ks := by
  cases ks with
  | slot b =>
    obtain ⟨hb, hb'⟩ | ⟨sl, sl', hb, hb', hview⟩ := h.looks.slot?_cases b
    · simp only [State.keyOf, hb, hb']
    · cases hlive : sl.valid with
      | false =>
        rw [State.keyOf_slot_free hb hlive, State.keyOf_slot_free hb' ((Slot.valid_eq_of_view hview).trans hlive)]
      | true =>
        have hlive' := (Slot.valid_eq_of_view hview).trans hlive
        have hlen := (Slot.len_content_eq_of_view hview hlive).1
        by_cases h32 : sl.len = 32
        · rw [State.keyOf_slot_key hb hlive h32, State.keyOf_slot_key hb' hlive' (hlen.trans h32),
            Slot.key_eq_of_view hview hlive h32]
        · rw [State.keyOf_slot_wrong_length hb hlive h32, State.keyOf_slot_wrong_length hb' hlive' (hlen ▸ h32)]
  | vault v =>
    obtain ⟨hv, hv'⟩ | ⟨x, x', hv, hv', hvalid, hguard, hdata⟩ := h.vault?_cases v
    · simp only [State.keyOf, hv, hv']
    · by_cases hopen : x.valid = true ∧ x.guard = true
      · rw [State.keyOf_vault_open hv hopen.1 hopen.2, ← hdata hopen.1 hopen.2]
        exact State.keyOf_vault_open hv' (hvalid.trans hopen.1) (hguard.trans hopen.2)
      · have hclosed : x.valid = false ∨ x.guard = false := by simpa only [not_and_or, Bool.not_eq_true] using hopen
        rw [State.keyOf_vault_closed hv hclosed]
        exact State.keyOf_vault_closed hv' (hclosed.imp hvalid.trans hguard.trans)

theorem DifferOnlyInSecrets.rngByte_eq (i : Nat) : s'.rngByte i = s.rngByte i :=
  State.rngByte_congr h.rngIn h.draws i

/-- What the engine held before does not show in its output (40_cipher_datapath.md R70 (b)). -/
theorem DifferOnlyInSecrets.transformXmem (key : Key) (rd rs rn : Reg) :
    LooksSame (s.transformXmem key (s.reg rd).toNat (s.reg rs).toNat (s.reg rn).toNat)
      (s'.transformXmem key (s'.reg rd).toNat (s'.reg rs).toNat (s'.reg rn).toNat) := by
  have hout : (s'.engine.transform s'.sbox (s'.sync0, s'.sync1) key
        (s'.xmemBytes (s'.reg rs).toNat (s'.reg rn).toNat)).1 =
      (s.engine.transform s.sbox (s.sync0, s.sync1) key (s.xmemBytes (s.reg rs).toNat (s.reg rn).toNat)).1 := by
    rw [Engine.transform_fst, Engine.transform_fst, h.sbox, h.looks.sync0, h.looks.sync1, h.looks.reg_eq,
      h.looks.reg_eq, h.looks.xmemBytes_eq]
  exact { h.looks.storeBytes rd hout with }

/-- A refill with the same draw looks the same, whatever the slot holds beyond `LEN`. -/
theorem DifferOnlyInSecrets.view_refill {sl sl' : Slot} (hvalid : sl'.valid = sl.valid) (hlen : sl'.len = sl.len) :
    (sl'.refill (s'.rngBytes sl'.len)).view = (sl.refill (s.rngBytes sl.len)).view :=
  Slot.view_eq_of_bytes hvalid hlen fun i hi => by
    have hi : i < sl.len := hi
    rw [Slot.byte_refill_rngBytes s sl.len sl hi, Slot.byte_refill_rngBytes s' sl'.len sl' (hlen ▸ hi), h.rngByte_eq]

end

/-! ## Two runs of a command -/

/-- If both runs answer a next state, the two look the same. -/
def Result.LookSame (r r' : Result) : Prop := ∀ t t', r = .next t → r' = .next t' → LooksSame t t'

theorem Result.LookSame.raise {s s' : State} (h : LooksSame s s') (e : ErrCode) :
    Result.LookSame (raise e s) (raise e s') := by
  intro t t' ht ht'
  rw [raise_eq_next.mp ht, raise_eq_next.mp ht']
  exact h.complete _ _

theorem Result.LookSame.respond {s s' : State} (h : LooksSame s s') {v v' : Word} (hv : v' = v) :
    Result.LookSame (respond v s) (respond v' s') := by
  intro t t' ht ht'
  rw [respond_eq_next.mp ht, respond_eq_next.mp ht', hv]
  exact h.complete _ _

/-- Both runs take the same branch. -/
theorem Result.LookSame.ite {c c' : Prop} [Decidable c] [Decidable c'] {a a' b b' : Result} (hc : c' ↔ c)
    (ha : c → Result.LookSame a a') (hb : ¬ c → Result.LookSame b b') :
    Result.LookSame (if c then a else b) (if c' then a' else b') := by
  by_cases h : c
  · rw [if_pos h, if_pos (hc.mpr h)]
    exact ha h
  · rw [if_neg h, if_neg (mt hc.mp h)]
    exact hb h

/-! ## The commands, one by one -/

section

variable {s s' : State} (h : LooksSame s s')
include h

theorem execStb_looksSame (ra : Reg) (imm : Byte) : Result.LookSame (execStb ra imm s) (execStb ra imm s') :=
  .ite (h.inRange_iff ra 1) (fun _ => .respond ((h.storeBytes ra rfl).bumpReg ra) rfl) (fun _ => .raise h _)

theorem execLdb_looksSame (ra : Reg) : Result.LookSame (execLdb ra s) (execLdb ra s') :=
  .ite (h.inRange_iff ra 1) (fun _ => .respond (h.bumpReg ra) (by rw [h.reg_eq, h.xmem])) (fun _ => .raise h _)

theorem execStw_looksSame (ra rb : Reg) : Result.LookSame (execStw ra rb s) (execStw ra rb s') :=
  .ite (h.inRange_iff ra 4) (fun _ => .respond (h.storeBytes ra (congrArg wordBytes (h.reg_eq rb))) rfl)
    (fun _ => .raise h _)

theorem execLdw_looksSame (rd ra : Reg) : Result.LookSame (execLdw rd ra s) (execLdw rd ra s') := by
  have hload : s'.loadWord (s'.reg ra).toNat = s.loadWord (s.reg ra).toNat := by rw [h.reg_eq, h.loadWord_eq]
  rw [execLdw, execLdw, hload]
  exact .ite (h.inRange_iff ra 4) (fun _ => .respond (h.setReg rd _) rfl) (fun _ => .raise h _)

theorem execCfgsbox_looksSame (ra rn : Reg) : Result.LookSame (execCfgsbox ra rn s) (execCfgsbox ra rn s') := by
  refine .ite (by rw [h.reg_eq]) (fun _ => .raise h _) fun _ => ?_
  refine .ite (not_congr (h.inRange_iff ra 128)) (fun _ => .raise h _) fun _ => ?_
  exact .ite (by rw [h.reg_eq, h.tableMalformed_eq]) (fun _ => .raise h _) fun _ => .respond (h.with_sbox _ _) rfl

theorem execSbld_looksSame (sb : SlotIx) (ra rn : Reg) :
    Result.LookSame (execSbld sb ra rn s) (execSbld sb ra rn s') := by
  obtain ⟨hb, hb'⟩ | ⟨sl, sl', hb, hb', hview⟩ := h.slot?_cases sb
  · simp only [execSbld, hb, hb']
    exact .raise h _
  · simp only [execSbld, hb, hb']
    refine .ite (by rw [Slot.valid_eq_of_view hview]) (fun _ => .raise h _) fun _ => ?_
    refine .ite (by rw [h.reg_eq, h.params]) (fun _ => .raise h _) fun _ => ?_
    refine .ite (by rw [h.reg_eq rn]; exact not_congr (h.inRange_iff ra _)) (fun _ => .raise h _) fun _ => ?_
    have hlive : (Slot.live s'.params.sbCap (s'.xmemBytes (s'.reg ra).toNat (s'.reg rn).toNat)).view =
        (Slot.live s.params.sbCap (s.xmemBytes (s.reg ra).toNat (s.reg rn).toNat)).view := by
      rw [h.params, h.reg_eq, h.reg_eq, h.xmemBytes_eq]
    exact .respond ((h.setSlot sb hlive).storeBytes ra (by rw [h.reg_eq])) rfl

theorem execSbrel_looksSame (sb : SlotIx) (imm : Byte) :
    Result.LookSame (execSbrel sb imm s) (execSbrel sb imm s') := by
  obtain ⟨hb, hb'⟩ | ⟨sl, sl', hb, hb', -⟩ := h.slot?_cases sb
  · simp only [execSbrel, hb, hb']
    exact .raise h _
  · simp only [execSbrel, hb, hb']
    exact .respond (h.setSlot sb (by rw [h.params])) rfl

theorem execSbst_looksSame (sb : SlotIx) (ra : Reg) : Result.LookSame (execSbst sb ra s) (execSbst sb ra s') := by
  obtain ⟨hb, hb'⟩ | ⟨sl, sl', hb, hb', hview⟩ := h.slot?_cases sb
  · simp only [execSbst, hb, hb']
    exact .raise h _
  · simp only [execSbst, hb, hb']
    refine .ite (by rw [Slot.valid_eq_of_view hview]) (fun _ => .raise h _) fun hlive => ?_
    obtain ⟨hlen, hcontent⟩ := Slot.len_content_eq_of_view hview (Bool.of_not_eq_false hlive)
    rw [hlen]
    exact .ite (not_congr (h.inRange_iff ra _)) (fun _ => .raise h _) fun _ => .respond (h.storeBytes ra hcontent) rfl

theorem execSblen_looksSame (sb : SlotIx) : Result.LookSame (execSblen sb s) (execSblen sb s') := by
  obtain ⟨hb, hb'⟩ | ⟨sl, sl', hb, hb', hview⟩ := h.slot?_cases sb
  · simp only [execSblen, hb, hb']
    exact .raise h _
  · simp only [execSblen, hb, hb']
    refine .ite (by rw [Slot.valid_eq_of_view hview]) (fun _ => .raise h _) fun hlive => ?_
    exact .respond h (congrArg _ (Slot.len_content_eq_of_view hview (Bool.of_not_eq_false hlive)).1)

theorem execVnew_looksSame (v : VaultIx) (sb : SlotIx) : Result.LookSame (execVnew v sb s) (execVnew v sb s') := by
  obtain ⟨hv, hv'⟩ | ⟨x, x', hv, hv', hvalid, -⟩ := h.vault?_cases v
  · simp only [execVnew, hv, hv']
    exact .raise h _
  obtain ⟨hb, hb'⟩ | ⟨sl, sl', hb, hb', hview⟩ := h.slot?_cases sb
  · simp only [execVnew, hv, hv', hb, hb']
    exact .raise h _
  · simp only [execVnew, hv, hv', hb, hb']
    refine .ite (by rw [hvalid]) (fun _ => .raise h _) fun _ => ?_
    refine .ite (by rw [Slot.valid_eq_of_view hview]) (fun _ => .raise h _) fun hlive => ?_
    have hlen := (Slot.len_content_eq_of_view hview (Bool.of_not_eq_false hlive)).1
    refine .ite (by rw [hlen]) (fun _ => .raise h _) fun _ => ?_
    have hwiped : LooksSame (s.setSlot sb (Slot.free s.params.sbCap 0#8))
        (s'.setSlot sb (Slot.free s'.params.sbCap 0#8)) := h.setSlot sb (by rw [h.params])
    refine .respond ((hwiped.setVault v ?_ ?_).rngAdvance _ _) rfl
    · simp only [Vault.lock_valid]
    · simp only [Vault.lock_guard]

theorem execGacq_looksSame (v : VaultIx) : Result.LookSame (execGacq v s) (execGacq v s') := by
  obtain ⟨hv, hv'⟩ | ⟨x, x', hv, hv', hvalid, hguard⟩ := h.vault?_cases v
  · simp only [execGacq, hv, hv']
    exact .raise h _
  · simp only [execGacq, hv, hv']
    refine .ite (by rw [hvalid]) (fun _ => .raise h _) fun _ => ?_
    refine .ite (by rw [hguard]) (fun _ => .raise h _) fun _ => ?_
    refine .respond (h.setVault v ?_ ?_) rfl
    · simp only [Vault.unlock_valid, hvalid]
    · rfl

theorem execGrel_looksSame (v : VaultIx) : Result.LookSame (execGrel v s) (execGrel v s') := by
  obtain ⟨hv, hv'⟩ | ⟨x, x', hv, hv', hvalid, hguard⟩ := h.vault?_cases v
  · simp only [execGrel, hv, hv']
    exact .raise h _
  · simp only [execGrel, hv, hv']
    refine .ite (by rw [hvalid]) (fun _ => .raise h _) fun _ => ?_
    refine .ite (by rw [hguard]) (fun _ => .raise h _) fun _ => ?_
    refine .respond ((h.setVault v ?_ ?_).rngAdvance _ _) rfl
    · simp only [Vault.lock_valid, hvalid]
    · rfl

theorem execVdel_looksSame (v : VaultIx) : Result.LookSame (execVdel v s) (execVdel v s') := by
  obtain ⟨hv, hv'⟩ | ⟨x, x', hv, hv', -, hguard⟩ := h.vault?_cases v
  · simp only [execVdel, hv, hv']
    exact .raise h _
  · simp only [execVdel, hv, hv']
    refine .ite (by rw [hguard]) (fun _ => .raise h _) fun _ => ?_
    refine .respond (h.setVault v ?_ ?_) rfl
    · rfl
    · exact hguard

end

section

variable {s s' : State} (h : DifferOnlyInSecrets s s')
include h

theorem execXform_looksSame (rd rs rn : Reg) (ks : KeySrc) :
    Result.LookSame (execXform rd rs rn ks s) (execXform rd rs rn ks s') := by
  have hrange (r : Reg) : s'.InRange (s'.reg r) (s'.reg rn).toNat ↔ s.InRange (s.reg r) (s.reg rn).toNat := by
    rw [h.looks.reg_eq rn]
    exact h.looks.inRange_iff r _
  rw [execXform, execXform, h.keyOf_eq]
  cases s.keyOf ks with
  | error e => exact .raise h.looks e
  | ok key =>
    refine .ite (or_congr (not_congr (hrange rs)) (not_congr (hrange rd))) (fun _ => .raise h.looks _) fun _ => ?_
    refine .ite (by rw [h.looks.reg_eq, h.looks.reg_eq, h.looks.reg_eq]) (fun _ => .raise h.looks _) fun _ => ?_
    exact .respond (h.transformXmem key rd rs rn) rfl

theorem execSbrand_looksSame (sb : SlotIx) : Result.LookSame (execSbrand sb s) (execSbrand sb s') := by
  obtain ⟨hb, hb'⟩ | ⟨sl, sl', hb, hb', hview⟩ := h.looks.slot?_cases sb
  · simp only [execSbrand, hb, hb']
    exact .raise h.looks _
  · simp only [execSbrand, hb, hb']
    have hvalid := Slot.valid_eq_of_view hview
    refine .ite (by rw [hvalid]) (fun _ => .raise h.looks _) fun hlive => ?_
    have hlen := (Slot.len_content_eq_of_view hview (Bool.of_not_eq_false hlive)).1
    exact .respond ((h.looks.setSlot sb (h.view_refill hvalid hlen)).rngAdvance _ _) rfl

theorem execVrd_looksSame (v : VaultIx) (ra : Reg) : Result.LookSame (execVrd v ra s) (execVrd v ra s') := by
  obtain ⟨hv, hv'⟩ | ⟨x, x', hv, hv', hvalid, hguard, hdata⟩ := h.vault?_cases v
  · simp only [execVrd, hv, hv']
    exact .raise h.looks _
  · simp only [execVrd, hv, hv']
    refine .ite (by rw [hvalid, hguard]) (fun _ => .raise h.looks _) fun hopen => ?_
    obtain ⟨hv, hg⟩ := not_or.mp hopen
    have hkey := hdata (Bool.of_not_eq_false hv) (Bool.of_not_eq_false hg)
    exact .ite (not_congr (h.looks.inRange_iff ra _)) (fun _ => .raise h.looks _) fun _ =>
      .respond (h.looks.storeBytes ra (congrArg Vector.toList hkey)) rfl

/-- The two runs of any command look the same. -/
theorem exec_looksSame (i : Instr) : Result.LookSame (exec i s) (exec i s') := by
  cases i with
  | nop => exact .respond h.looks rfl
  | li rd imm => exact .respond (h.looks.setReg rd _) rfl
  | lih rd imm =>
    rw [exec, exec, execLih, execLih, h.looks.reg_eq]
    exact .respond (h.looks.setReg rd _) rfl
  | getr rs => exact .respond h.looks (h.looks.reg_eq rs)
  | rdc c => exact .respond h.looks (h.looks.csr_eq c)
  | stb ra imm => exact execStb_looksSame h.looks ra imm
  | ldb ra => exact execLdb_looksSame h.looks ra
  | stw ra rb => exact execStw_looksSame h.looks ra rb
  | ldw rd ra => exact execLdw_looksSame h.looks rd ra
  | cfgsbox ra rn => exact execCfgsbox_looksSame h.looks ra rn
  | cfgsync ra rb => exact .respond (h.looks.with_sync (h.looks.reg_eq ra) (h.looks.reg_eq rb)) rfl
  | xform rd rs rn ks => exact execXform_looksSame h rd rs rn ks
  | sbld sb ra rn => exact execSbld_looksSame h.looks sb ra rn
  | sbrel sb imm => exact execSbrel_looksSame h.looks sb imm
  | sbrand sb => exact execSbrand_looksSame h sb
  | sbst sb ra => exact execSbst_looksSame h.looks sb ra
  | sblen sb => exact execSblen_looksSame h.looks sb
  | vnew v sb => exact execVnew_looksSame h.looks v sb
  | gacq v => exact execGacq_looksSame h.looks v
  | grel v => exact execGrel_looksSame h.looks v
  | vrd v ra => exact execVrd_looksSame h v ra
  | vdel v => exact execVdel_looksSame h.looks v

end

/-! ## The obligation -/

/-- Settles O60: every branch and every visible result is read from what looks the same, from the key of a live slot or
an open vault, or from the random source. -/
theorem secretsAreNotObservable : Obligations.SecretsAreNotObservable :=
  fun i _ _ t t' hdiffer h h' => exec_looksSame hdiffer i t t' h h'

end Sys2Proof.Machine
end
